-- ==== Sys2Proof/Word.lean ====
section
/-!
DEFINITION. The words of the EBA core: the storage byte, the command word, and the command the host drives.
-/

namespace Sys2Proof

/-- A storage byte: bit 0 is its least-significant bit (R14). -/
abbrev Byte := BitVec 8

/-- A command word `CMD` (R60, R63). -/
abbrev CmdWord := BitVec 32

/-- A command as the host issues it: the command word and the two operand buses, unsigned naturals (R60, R61, R17).
The width of a bus is the open parameter `ARG_WIDTH`, so a bus is a natural and its bound a check (log entry 11). -/
structure Command where
  /-- the command word -/
  cmd : CmdWord
  /-- operand bus A -/
  a : Nat
  /-- operand bus B -/
  b : Nat
  deriving DecidableEq, Repr

end Sys2Proof
end

