-- ==== Sys2Proof/Config.lean ====
section
/-!
DEFINITION. The parameters of one block (R6 to R13), fixed for its life, and the one free value of the model.
-/

namespace Sys2Proof

/-- The byte order of an instance (R8). -/
inductive Endian where
  | little
  | big
  deriving DecidableEq, Repr

/-- The storage contents at reset (R12): fresh zero bytes, or the bytes of the caller's buffer. -/
inductive Init where
  | zeroed
  | borrowed (bytes : List Byte)
  deriving DecidableEq, Repr

/-- The parameters of a block, `NB`, `ENDIAN`, `CHECKED`, `ATTACHED`, `ARG_WIDTH`, `INIT` and `SCRATCH_BYTES`
(R6, R8 to R13). They are a field of State, so that a statement about every state is one about every instance. -/
structure Params where
  /-- `NB`, the number of storage bytes (R6) -/
  nb : Nat
  /-- `ENDIAN` (R8) -/
  endian : Endian
  /-- `CHECKED` (R9) -/
  checked : Bool
  /-- `ATTACHED` (R10) -/
  attached : Bool
  /-- `ARG_WIDTH`, the width of the operand buses and of the response fields (R11) -/
  argWidth : Nat
  /-- `INIT` (R12) -/
  init : Init
  /-- `SCRATCH_BYTES`, which no rule reads (R13) -/
  scratchBytes : Nat
  deriving DecidableEq, Repr

/-- `W = NB * 8`, the bit capacity (R7). -/
def Params.W (p : Params) : Nat := p.nb * 8

/-- The instance that State.reset shows: the parameters of the spec's first reset vector. DESIGN CHOICE, log entry 3. -/
def Params.shown : Params :=
  { nb := 2, endian := .big, checked := true, attached := true, argWidth := 32, init := .zeroed, scratchBytes := 1 }

/-- What storage byte `b` holds after the `draw`-th unchecked out-of-range command: nothing is promised about it
(R157), so it is a free value that no proof can see. Log entry 5. -/
opaque Config.unspecifiedByte (draw b : Nat) : Byte

end Sys2Proof
end

