-- ==== Sys2Proof/Syntax.lean ====
section
/-!
DEFINITION. The twelve commands of the opcode map (R69) with the operands they use (R61).
-/

namespace Sys2Proof

/-- The commands, one constructor per row of the opcode table. Each carries only the operands its command uses (R61);
a bus the command does not use is ignored (R72) and is no part of it. Operands are unsigned naturals, used as carried
(R17, R66). -/
inductive Instr where
  /-- `GET a` (R91) -/
  | get (index : Nat)
  /-- `SET a, v` (R92) -/
  | set (index value : Nat)
  /-- `TOGGLE a` (R93) -/
  | toggle (index : Nat)
  /-- `SWAP a, b` (R94) -/
  | swap (index1 index2 : Nat)
  /-- `SET_ALL v` (R95) -/
  | setAll (value : Nat)
  /-- `SHL.Z p` (R130) -/
  | shlZ (positions : Nat)
  /-- `SHL.O p` (R131) -/
  | shlO (positions : Nat)
  /-- `SHL.R p` (R132) -/
  | shlR (positions : Nat)
  /-- `SHR.Z p` (R133) -/
  | shrZ (positions : Nat)
  /-- `SHR.O p` (R134) -/
  | shrO (positions : Nat)
  /-- `SHR.R p` (R135) -/
  | shrR (positions : Nat)
  /-- `MAP a` (R85) -/
  | map (index : Nat)
  deriving DecidableEq, Repr

end Sys2Proof
end

