-- ==== Sys2Proof/WellFormed.lean ====
section
/-!
DEFINITION. What the spec requires of a parameter set, of the buses of a command, and of a command's operands.
-/

namespace Sys2Proof

/-- A borrowed buffer supplies exactly `NB` bytes (R12, R176). -/
def Init.fits (nb : Nat) : Init → Bool
  | .zeroed => true
  | .borrowed bytes => bytes.length == nb

/-- A parameter set that is a block: `NB >= 1` (R6), `2^ARG_WIDTH > W - 1` (R11), `SCRATCH_BYTES >= 1` (R13), and, where
there is storage, a borrowed buffer of `NB` bytes (R12, R176; log entry 15). -/
def Params.wf (p : Params) : Bool :=
  decide (1 ≤ p.nb) && decide (p.W ≤ 2 ^ p.argWidth) && decide (1 ≤ p.scratchBytes) && (!p.attached || p.init.fits p.nb)

/-- Both buses carry naturals of `ARG_WIDTH` bits (R11, R61). -/
def Command.fits (w : Nat) (c : Command) : Bool :=
  decide (c.a < 2 ^ w) && decide (c.b < 2 ^ w)

/-- The operands a command lays on bus A and bus B, 0 on a bus it does not use (R61, R70). -/
def Instr.operands : Instr → Nat × Nat
  | .get i => (i, 0)
  | .set i v => (i, v)
  | .toggle i => (i, 0)
  | .swap i j => (i, j)
  | .setAll v => (0, v)
  | .shlZ p => (p, 0)
  | .shlO p => (p, 0)
  | .shlR p => (p, 0)
  | .shrZ p => (p, 0)
  | .shrO p => (p, 0)
  | .shrR p => (p, 0)
  | .map i => (i, 0)

/-- A command whose operands a bus of `w` bits can carry (R11, R61). -/
def Instr.wf (w : Nat) (i : Instr) : Bool :=
  decide (i.operands.1 < 2 ^ w) && decide (i.operands.2 < 2 ^ w)

end Sys2Proof
end

