-- ==== Sys2Proof/Decode.lean ====
section
/-!
DEFINITION. The decoder, total on every command word (R63 to R69), and the encoder written from the same tables.
-/

namespace Sys2Proof

/-- Why a command word is illegal (R67). Every reason raises the one fault ILLEGAL_COMMAND (R156). -/
inductive DecodeError where
  /-- `RSV != 0` -/
  | reservedBits
  /-- `OP` is 0x0 or in 0x9 to 0xF -/
  | reservedOp
  /-- `OP` is 0x6 or 0x7 and `FILL = 11` -/
  | reservedFill
  /-- `OP` is a legal value outside 0x6 and 0x7 and `FILL != 00` -/
  | fillOnNonShift
  deriving DecidableEq, Repr

/-- The field `OP`, bits 3:0 (R63). -/
def opField (w : CmdWord) : Nat := w.toNat % 16

/-- The field `FILL`, bits 5:4 (R63). -/
def fillField (w : CmdWord) : Nat := w.toNat / 16 % 4

/-- The field `RSV`, bits 31:6 (R63). -/
def rsvField (w : CmdWord) : Nat := w.toNat / 64

/-- The operations of the `OP` field (R64) under the fill policies of the `FILL` field (R65), with the operands of the
buses `a` and `b` (R61). -/
def decodeFields (op fill a b : Nat) : Except DecodeError Instr :=
  match op, fill with
  | 1, 0 => .ok (.get a)
  | 2, 0 => .ok (.set a b)
  | 3, 0 => .ok (.toggle a)
  | 4, 0 => .ok (.swap a b)
  | 5, 0 => .ok (.setAll b)
  | 6, 0 => .ok (.shlZ a)
  | 6, 1 => .ok (.shlO a)
  | 6, 2 => .ok (.shlR a)
  | 7, 0 => .ok (.shrZ a)
  | 7, 1 => .ok (.shrO a)
  | 7, 2 => .ok (.shrR a)
  | 8, 0 => .ok (.map a)
  | 6, _ => .error .reservedFill
  | 7, _ => .error .reservedFill
  | op, _ => if 1 ≤ op ∧ op ≤ 8 then .error .fillOnNonShift else .error .reservedOp

/-- Decoding of a command: one format, no state read (R63, R67, R68). -/
def decode (c : Command) : Except DecodeError Instr :=
  match rsvField c.cmd with
  | 0 => decodeFields (opField c.cmd) (fillField c.cmd) c.a c.b
  | _ => .error .reservedBits

/-- The command word from its fields `OP` and `FILL`, with `RSV = 0` (R63). -/
def commandWord (op fill : Nat) : CmdWord := BitVec.ofNat 32 (fill * 16 + op)

/-- The command word of each command (R64, R65). -/
def Instr.word : Instr → CmdWord
  | .get _ => commandWord 1 0
  | .set _ _ => commandWord 2 0
  | .toggle _ => commandWord 3 0
  | .swap _ _ => commandWord 4 0
  | .setAll _ => commandWord 5 0
  | .shlZ _ => commandWord 6 0
  | .shlO _ => commandWord 6 1
  | .shlR _ => commandWord 6 2
  | .shrZ _ => commandWord 7 0
  | .shrO _ => commandWord 7 1
  | .shrR _ => commandWord 7 2
  | .map _ => commandWord 8 0

/-- The command the assembler makes of an instruction: an unused bus is 0 (R61, R70). -/
def encode (i : Instr) : Command :=
  { cmd := i.word, a := i.operands.1, b := i.operands.2 }

/-- The pseudo-instruction `ROL p` (R71). -/
def rol (positions : Nat) : Instr := .shlR positions

/-- The pseudo-instruction `ROR p` (R71). -/
def ror (positions : Nat) : Instr := .shrR positions

/-- Whether a command uses bus A (R61). -/
def Instr.usesA : Instr → Bool
  | .setAll _ => false
  | _ => true

/-- Whether a command uses bus B (R61). -/
def Instr.usesB : Instr → Bool
  | .set _ _ => true
  | .swap _ _ => true
  | .setAll _ => true
  | _ => false

/-- A command given by the bits of its word as the opcode table numbers them: `CMD` is the low `nbits` bits of `w`, and
every later bit, the buses among them, is 0. -/
def commandOfBits (nbits w : Nat) : Command :=
  { cmd := BitVec.ofNat 32 (w % 2 ^ nbits), a := 0, b := 0 }

/-- What the decoder reads from an instruction of the opcode table whose bits are `w`. -/
def decodeTableWord (nbits w : Nat) : Option Instr :=
  match decode (commandOfBits nbits w) with
  | .ok i => some i
  | .error _ => none

end Sys2Proof
end

