-- ==== Sys2Proof/Machine/Memory.lean ====
section
/-!
DEFINITION. STORAGE as plain data: a list of (address, byte) cells in one canonical form, and its operations.
-/

namespace Sys2Proof.Machine

/-- Storage: cells with strictly rising addresses, none holding what an unlisted address reads as. -/
abbrev Memory := List Host.Cell

/-- What an unlisted address reads as: 0x00, the contents of fresh storage (R171; log entry 7). -/
def Memory.unlisted : Byte := 0x00

/-- The byte at an address. -/
def Memory.read : Memory → Nat → Byte
  | [], _ => Memory.unlisted
  | c :: rest, a => if c.1 = a then c.2 else Memory.read rest a

/-- The storage with no cell at an address. -/
def Memory.erase : Memory → Nat → Memory
  | [], _ => []
  | c :: rest, a => if c.1 = a then Memory.erase rest a else c :: Memory.erase rest a

/-- The storage with one more cell, put before the first higher address. -/
def Memory.insert : Memory → Nat → Byte → Memory
  | [], a, v => [(a, v)]
  | c :: rest, a, v => if a < c.1 then (a, v) :: c :: rest else c :: Memory.insert rest a v

/-- `MemWrite(a, 1, v)`: the byte at `a` becomes `v`; a byte that an unlisted address reads as is not listed (R16). -/
def Memory.write (m : Memory) (a : Nat) (v : Byte) : Memory :=
  if v = Memory.unlisted then Memory.erase m a else Memory.insert (Memory.erase m a) a v

/-- The bytes `f 0 .. f (n-1)` written at the addresses `g 0 .. g (n-1)`, in this order. -/
def Memory.writeEach (g : Nat → Nat) (f : Nat → Byte) : Nat → Memory → Memory
  | 0, m => m
  | n + 1, m => Memory.write (Memory.writeEach g f n m) (g n) (f n)

/-- The canonical form: addresses strictly rising, no cell equal to what an unlisted address reads as. -/
abbrev Memory.wf (m : Memory) : Prop :=
  m.Pairwise (fun c d => c.1 < d.1) ∧ ∀ c ∈ m, c.2 ≠ Memory.unlisted

/-- Every listed address is below `n`. -/
abbrev Memory.below (n : Nat) (m : Memory) : Prop := ∀ c ∈ m, c.1 < n

end Sys2Proof.Machine
end

