-- ==== Sys2Proof/Machine/State.lean ====
section
/-!
DEFINITION. The state of one EBA core with the host that drives it, the reasons a step can stop, and the reset state.
-/

namespace Sys2Proof.Machine

/-- One action of the host on one of the block's interfaces (R28, R44, R60, R170). -/
inductive HostAction where
  /-- a command on the command interface (R60) -/
  | command (c : Command)
  /-- a read of register number `r` (R28) -/
  | readRegister (r : Nat)
  /-- a write of register number `r`, which has no effect (R24, R25) -/
  | writeRegister (r v : Nat)
  /-- `MemRead(b, 1)` on the storage port (R44) -/
  | readByte (b : Nat)
  /-- `MemWrite(b, 1, v)` on the storage port (R44) -/
  | writeByte (b : Nat) (v : Byte)
  /-- reset (R170) -/
  | reset
  deriving DecidableEq, Repr

/-- `RSTATUS` (R62). -/
inductive RStatus where
  | ok
  | fault
  deriving DecidableEq, Repr

/-- The response `(RSTATUS, R0, R1)` that ends a command (R62); `R0` and `R1` are naturals of `ARG_WIDTH` bits. -/
structure Response where
  /-- `RSTATUS` -/
  rstatus : RStatus
  /-- `R0` -/
  r0 : Nat
  /-- `R1` -/
  r1 : Nat
  deriving DecidableEq, Repr

/-- What the block drives to the host in answer to one action. -/
inductive Answer where
  /-- the response of a command (R62) -/
  | response (r : Response)
  /-- the value of a register (R28) -/
  | register (v : Nat)
  /-- a storage byte (R44) -/
  | byte (v : Byte)
  deriving DecidableEq, Repr

/-- The state. `storage`, `status` and `faultInfo` are the registers and the storage of R20; `CFG` and `SIZE`, which are
hardwired to the parameters, are views of `par` (State.cfgReg, State.sizeReg). The last three fields are the model's
own (log entries 1, 2 and 6). -/
structure State where
  /-- the parameters of the instance (R6 to R13), from which `CFG` (R24) and `SIZE` (R25) read -/
  par : Params
  /-- `STORAGE` (R23); empty when `ATTACHED = false` (R171) -/
  storage : Memory
  /-- `STATUS` (R26) -/
  status : BitVec 32
  /-- `FAULT_INFO` (R27), a natural of `ARG_WIDTH` bits -/
  faultInfo : Nat
  /-- the host's actions still to come, in the order it issues them (R22, R50) -/
  pending : List HostAction
  /-- what the block answered to the latest action; nothing where it gives no answer -/
  answer : Option Answer
  /-- how many times unspecified storage has been drawn (R157) -/
  draws : Nat
  deriving DecidableEq, Repr

/-- Why a step faults. No command ends so: a fault of a command is a next state, its entry (R152). -/
inductive Fault where
  /-- The host reads or writes a storage byte that does not exist, `b >= NB` or `ATTACHED = false`, a move the spec does
  not give it (R44, R171, R181). Raised by the storage port. Safe. Log entry 8. -/
  | noSuchByte (b : Nat)
  deriving DecidableEq, Repr

/-- Why a step is refused. No command the interface can carry is refused. -/
inductive Refusal where
  /-- An instruction without a meaning. Raised by an arm of exec; there is none. Safe. -/
  | notModelled (mnemonic : String)
  /-- The parameters are those of no block: `NB = 0`, buses too narrow for the indices, or a borrowed buffer of another
  length (R6, R11, R12, R162). Raised by step. Safe. Log entry 8. -/
  | noSuchBlock
  /-- An operand does not fit its bus, so that no host can drive the command (R11, R61). Raised by the command
  interface. Safe. Log entry 8. -/
  | operandTooWide
  deriving DecidableEq, Repr

/-- The machine right after reset (R170 to R174), shown for one instance, the spec's first reset vector (log entry 3).
State.construct gives the reset state of every instance. -/
def State.reset : State :=
  { par := Params.shown
    storage := []
    status := 0
    faultInfo := 0
    pending := []
    answer := none
    draws := 0 }

end Sys2Proof.Machine
end

