-- ==== Sys2Proof/Machine/Flags.lean ====
section
/-!
DEFINITION. The block has no condition flags (R29). This file holds what takes their place: the layout of CFG and STATUS,
the registers as the host reads them, and the fault table.
-/

namespace Sys2Proof.Machine

/-- `CFG`: ENDIAN in bit 0, CHECKED in bit 1, ATTACHED in bit 2, the rest zero (R24). -/
def State.cfgReg (s : State) : BitVec 32 :=
  BitVec.ofNat 32
    ((match s.par.endian with | .little => 0 | .big => 1) + 2 * s.par.checked.toNat + 4 * s.par.attached.toNat)

/-- `SIZE`: `NB`, or 0 where there is no storage (R25). -/
def State.sizeReg (s : State) : Nat := if s.par.attached then s.par.nb else 0

/-- The bits of `STATUS` that are no reserved bits: FAULTED and FAULT_CODE (R26). -/
def statusFields : BitVec 32 := 0x000000F1

/-- `STATUS` as the host reads it: its reserved bits read as zero (R26). -/
def State.statusReg (s : State) : BitVec 32 := s.status &&& statusFields

/-- `STATUS.FAULTED`, bit 0 (R26). -/
def State.faulted (s : State) : Bool := s.status.getLsbD 0

/-- `STATUS.FAULT_CODE`, bits 7:4 (R26). -/
def State.faultCode (s : State) : Nat := s.status.toNat / 16 % 16

/-- `STATUS` with FAULTED set and FAULT_CODE replaced; a reserved bit keeps its value (R152; log entry 13). -/
def statusWithFault (status : BitVec 32) (code : Nat) : BitVec 32 :=
  (status &&& ~~~statusFields) ||| BitVec.ofNat 32 (1 + 16 * (code % 16))

/-- The value of register number `r` (R28). -/
def State.register (s : State) (r : Nat) : Nat :=
  match r with
  | 0 => s.cfgReg.toNat
  | 1 => s.sizeReg
  | 2 => s.statusReg.toNat
  | 3 => s.faultInfo
  | _ => 0

/-- The causes of a fault (R151), each with what its FAULT_INFO is made of. -/
inductive Cause where
  /-- code 1: the command word is illegal (R156) -/
  | illegalCommand (w : CmdWord)
  /-- code 2: there is no storage (R154) -/
  | invalidReference
  /-- code 3: an index out of range in checked mode (R155) -/
  | indexOutOfRange (i : Nat)
  /-- code 4: an index out of range in unchecked mode (R157) -/
  | unspecified (i : Nat)
  deriving DecidableEq, Repr

/-- `FAULT_CODE` of a cause (R151). -/
def faultCodeOf : Cause → Nat
  | .illegalCommand _ => 1
  | .invalidReference => 2
  | .indexOutOfRange _ => 3
  | .unspecified _ => 4

/-- `FAULT_INFO` of a cause: the command word in `ARG_WIDTH` bits, 0, or the offending index (R151, R27). -/
def faultInfoOf (argWidth : Nat) : Cause → Nat
  | .illegalCommand w => w.toNat % 2 ^ argWidth
  | .invalidReference => 0
  | .indexOutOfRange i => i
  | .unspecified i => i

end Sys2Proof.Machine
end

