-- ==== Sys2Proof/Machine/Operands.lean ====
section
/-!
DEFINITION. Operand forms: the address mapping of a logical bit index, the logical view of the storage, and the Boolean
of a value operand.
-/

namespace Sys2Proof.Machine

/-- `bool(x)` (R16, R66). -/
def boolOf (x : Nat) : Bool := decide (x ≠ 0)

/-- `W`, the number of logical bits (R7). -/
def State.W (s : State) : Nat := s.par.nb * 8

/-- `phys(k)`, the physical byte that holds logical byte `k` (R81, R42). -/
def State.phys (s : State) (k : Nat) : Nat :=
  match s.par.endian with
  | .little => k
  | .big => s.par.nb - 1 - k

/-- `addr(i)`, the physical byte and the bit offset of logical bit `i` (R80). -/
def State.addr (s : State) (i : Nat) : Nat × Nat :=
  (s.phys (i / 8), i % 8)

/-- `MemRead(b, 1)`, the byte `STORAGE[b]` (R16). -/
def State.byteAt (s : State) (b : Nat) : Byte := Memory.read s.storage b

/-- `L[k]`, logical byte `k` (R15, R81). -/
def State.logicalByte (s : State) (k : Nat) : Byte := s.byteAt (s.phys k)

/-- `getbit(i)`, logical bit `i` of the array (R82). -/
def State.getBit (s : State) (i : Nat) : Bool :=
  (s.byteAt (s.addr i).1).getLsbD (s.addr i).2

/-- The logical integer of the first `n` logical bytes. -/
def State.valueOfBytes (s : State) : Nat → Nat
  | 0 => 0
  | n + 1 => s.valueOfBytes n + (s.logicalByte n).toNat * 2 ^ (8 * n)

/-- `V`, the storage read as one unsigned integer of `W` bits (R15, R43). -/
def State.value (s : State) : Nat := s.valueOfBytes s.par.nb

/-- A byte with its bit `j` set to `v`: `(x & ~(1 << j) & 0xFF) | (v << j)` (41_accessors.md, putbit). -/
def withBit (x : Byte) (j : Nat) (v : Bool) : Byte :=
  (x &&& ~~~(1#8 <<< j)) ||| ((BitVec.ofBool v).setWidth 8 <<< j)

end Sys2Proof.Machine
end

