-- ==== Sys2Proof/Machine/Ops.lean ====
section
/-!
DEFINITION. The shared operations: writing the storage, responding, fault entry, the checks every command makes, running
one command, and reset.
-/

namespace Sys2Proof.Machine

/-- `MemWrite(b, 1, v)` (R16). -/
def State.writeByte (s : State) (b : Nat) (v : Byte) : State :=
  { s with storage := Memory.write s.storage b v }

/-- `putbit(i, v)` (41_accessors.md). -/
def State.putBit (s : State) (i : Nat) (v : Bool) : State :=
  s.writeByte (s.addr i).1 (withBit (s.byteAt (s.addr i).1) (s.addr i).2 v)

/-- Every storage byte becomes `v`: the loop of SET_ALL (R95) and of a saturated shift (R111). -/
def State.fillAll (s : State) (v : Byte) : State :=
  { s with storage := Memory.writeEach id (fun _ => v) s.par.nb s.storage }

/-- `STORAGE[phys(k)] <- f k` for every logical byte `k` (R110). -/
def State.storeLogical (s : State) (f : Nat → Byte) : State :=
  { s with storage := Memory.writeEach s.phys f s.par.nb s.storage }

/-- `respond(r0, r1)`: the command completes (R16, R62). -/
def State.respond (s : State) (r0 r1 : Nat) : State :=
  { s with answer := some (.response { rstatus := .ok, r0 := r0, r1 := r1 }) }

/-- No answer: the action has none, or it is a command that is never answered. -/
def State.noAnswer (s : State) : State := { s with answer := none }

/-- The report of a fault: STATUS, FAULT_INFO and the FAULT response (R152). -/
def State.reportFault (s : State) (c : Cause) : State :=
  { s with
    status := statusWithFault s.status (faultCodeOf c)
    faultInfo := faultInfoOf s.par.argWidth c
    answer := some (.response { rstatus := .fault, r0 := faultCodeOf c, r1 := faultInfoOf s.par.argWidth c }) }

/-- Storage about which nothing is promised: `NB` free bytes (R157; log entry 5). -/
def State.unspecifiedStorage (s : State) : State :=
  { s with
    storage := Memory.writeEach id (Config.unspecifiedByte s.draws) s.par.nb s.storage
    draws := s.draws + 1 }

/-- Fault entry (R152): the report, and nothing else for the codes 1 to 3 (R159); for code 4 the storage is
unspecified as well (R157). -/
def State.enterFault (s : State) (c : Cause) : State :=
  match c with
  | .unspecified i => (s.reportFault (.unspecified i)).unspecifiedStorage
  | .illegalCommand w => s.reportFault (.illegalCommand w)
  | .invalidReference => s.reportFault .invalidReference
  | .indexOutOfRange i => s.reportFault (.indexOutOfRange i)

/-- `check_ref()` (R84). -/
def State.checkRef (s : State) : Option Cause :=
  if s.par.attached then none else some .invalidReference

/-- `check_index(i)` (R83). -/
def State.checkIndex (s : State) (i : Nat) : Option Cause :=
  if i < s.W then none
  else if s.par.checked then some (.indexOutOfRange i) else some (.unspecified i)

/-- `check_index` on each index operand in bus order, the first violation reported (R90, R158). -/
def State.checkIndices (s : State) : List Nat → Option Cause
  | [] => none
  | i :: rest =>
    match s.checkIndex i with
    | some c => some c
    | none => s.checkIndices rest

/-- The checks of a legal command: the reference, then the indices (R90, R158). -/
def State.checks (s : State) (indices : List Nat) : Option Cause :=
  match s.checkRef with
  | some c => some c
  | none => s.checkIndices indices

/-- A command issued to the block. Halted, it is never executed and never answered (R153; log entry 4). Otherwise it
makes its checks before it writes anything (R159): it enters the first fault they find, or has its effect. -/
def runCommand (s : State) (indices : List Nat) (effect : State → State) : Host.Outcome State Fault Refusal :=
  if s.faulted then .next s.noAnswer
  else
    match s.checks indices with
    | some c => .next (s.enterFault c)
    | none => .next (effect s)

/-- A command whose word is illegal: ILLEGAL_COMMAND at decode, before every other check (R156, R158). Halted, it is
never executed and never answered (R153). -/
def illegalCommand (w : CmdWord) (s : State) : Host.Outcome State Fault Refusal :=
  if s.faulted then .next s.noAnswer else .next (s.enterFault (.illegalCommand w))

/-- Byte `b` of the caller's buffer. -/
def borrowedByte (bytes : List Byte) (b : Nat) : Byte := bytes.getD b Memory.unlisted

/-- `STORAGE` at reset (R171). -/
def initialStorage (p : Params) : Memory :=
  if p.attached then
    match p.init with
    | .zeroed => []
    | .borrowed bytes => Memory.writeEach id (borrowedByte bytes) p.nb []
  else []

/-- Reset (R170): every register and the storage take their reset values; it clears a halted block (R153). What the host
still has to do, and the count of the draws, are the model's own and stay. -/
def State.applyReset (s : State) : State :=
  { s with
    storage := initialStorage s.par
    status := 0
    faultInfo := 0
    answer := none }

/-- The reset state of the instance with parameters `p` (R170 to R174). -/
def State.construct (p : Params) : State :=
  { par := p
    storage := initialStorage p
    status := 0
    faultInfo := 0
    pending := []
    answer := none
    draws := 0 }

/-- `NB` of a construction by `new(num_bits, endianness)`: the number of bytes that hold `num_bits` bits (R172). -/
def sizeOfNew (numBits : Nat) : Nat := (numBits + 7) / 8

/-- Construction by `new(num_bits, endianness)` (R172): zeroed storage; no block for `num_bits = 0` (R6) or
where R11 or R13 rules the parameters out (log entry 16). -/
def newBlock (numBits : Nat) (endian : Endian) (checked : Bool) (argWidth scratch : Nat) : Option State :=
  let p : Params :=
    { nb := sizeOfNew numBits, endian := endian, checked := checked, attached := true, argWidth := argWidth,
      init := .zeroed, scratchBytes := scratch }
  if p.wf then some (State.construct p) else none

/-- Construction by `from_bytes(buffer, length, endianness)` (R173): `header` bytes of the `length` hold the header, and
the rest is the bit buffer; no block where `length` is below the header's size or leaves no byte (R162, R6). `data` is
the bit buffer, the bytes of the caller's buffer outside the header. -/
def fromBytesBlock (data : List Byte) (length header : Nat) (endian : Endian) (checked : Bool)
    (argWidth scratch : Nat) : Option State :=
  let p : Params :=
    { nb := length - header, endian := endian, checked := checked, attached := true, argWidth := argWidth,
      init := .borrowed data, scratchBytes := scratch }
  if header ≤ length && p.wf then some (State.construct p) else none

/-- The first `n` storage bytes in physical order. -/
def State.bytes (s : State) : Nat → List Byte
  | 0 => []
  | n + 1 => s.bytes n ++ [s.byteAt n]

/-- What destruction leaves to the caller (R175): a borrowed buffer with its last contents; owned storage is released,
and nothing is left. -/
def State.leftByDestruction (s : State) : Option (List Byte) :=
  match s.par.init with
  | .zeroed => none
  | .borrowed _ => if s.par.attached then some (s.bytes s.par.nb) else none

end Sys2Proof.Machine
end

