-- ==== Sys2Proof/Machine/Accessors.lean ====
section
/-!
DEFINITION. The single-bit accessors and the bulk fill (41_accessors.md).
-/

namespace Sys2Proof.Machine

/-- `GET a`: respond logical bit `a` (R91). -/
def execGet (index : Nat) (s : State) : Host.Outcome State Fault Refusal :=
  runCommand s [index] fun s => s.respond (s.getBit index).toNat 0

/-- `SET a, v`: logical bit `a` becomes `bool(v)` (R92). -/
def execSet (index value : Nat) (s : State) : Host.Outcome State Fault Refusal :=
  runCommand s [index] fun s => (s.putBit index (boolOf value)).respond 0 0

/-- `TOGGLE a`: `MemWrite(b, 1, MemRead(b, 1) ^ (1 << j))` at `(b, j) = addr(a)` (R93). -/
def execToggle (index : Nat) (s : State) : Host.Outcome State Fault Refusal :=
  runCommand s [index] fun s =>
    (s.writeByte (s.addr index).1 (s.byteAt (s.addr index).1 ^^^ (1#8 <<< (s.addr index).2))).respond 0 0

/-- `SWAP a, b`: both bits are read before either is written (R94). -/
def execSwap (index1 index2 : Nat) (s : State) : Host.Outcome State Fault Refusal :=
  runCommand s [index1, index2] fun s =>
    ((s.putBit index1 (s.getBit index2)).putBit index2 (s.getBit index1)).respond 0 0

/-- `SET_ALL v`: every byte becomes 0xFF or 0x00, the fill byte of `bool(v)`; no index, no range check (R95). -/
def execSetAll (value : Nat) (s : State) : Host.Outcome State Fault Refusal :=
  runCommand s [] fun s => (s.fillAll (if boolOf value then 0xFF else 0x00)).respond 0 0

end Sys2Proof.Machine
end

