-- ==== Sys2Proof/Machine/Mapper.lean ====
section
/-!
DEFINITION. The mapper's command (40_addressing.md section 3).
-/

namespace Sys2Proof.Machine

/-- `MAP a`: respond the physical byte and the bit offset of logical bit `a` (R85). -/
def execMap (index : Nat) (s : State) : Host.Outcome State Fault Refusal :=
  runCommand s [index] fun s => s.respond (s.addr index).1 (s.addr index).2

end Sys2Proof.Machine
end

