-- ==== Sys2Proof/Machine/Shift.lean ====
section
/-!
DEFINITION. The shift and rotate engine (42_shift_engine.md): normalization, the whole-byte phase, the sub-bit phase with
its boundary byte, and the six commands.
-/

namespace Sys2Proof.Machine

/-- The direction of a shift: left toward higher logical indices (R112), right toward lower ones (R113). -/
inductive Direction where
  | left
  | right
  deriving DecidableEq, Repr

/-- The fill policies (R65). -/
inductive Fill where
  | zero
  | one
  | ring
  deriving DecidableEq, Repr

/-- `fb`, the fill byte of the zero and one policies; ring synthesizes its bytes from the array and never reads it. -/
def fillByte : Fill → Byte
  | .zero => 0x00
  | .one => 0xFF
  | .ring => 0x00

/-- The outcomes of normalization (R111). -/
inductive Normalized where
  | noop
  | saturate
  | count (p : Nat)
  deriving DecidableEq, Repr

/-- `normalize(p, fill)` (R111). -/
def normalizePositions (w p : Nat) (fill : Fill) : Normalized :=
  if p = 0 then .noop
  else
    match fill with
    | .ring => if p % w = 0 then .noop else .count (p % w)
    | .zero => if w ≤ p then .saturate else .count p
    | .one => if w ≤ p then .saturate else .count p

/-- The whole-byte phase (R121): logical byte `k` of `M` from the logical bytes `L`, moved by `q` bytes. -/
def wholeBytePhase (dir : Direction) (fill : Fill) (nb q : Nat) (L : Nat → Byte) (k : Nat) : Byte :=
  match dir, fill with
  | .left, .ring => L ((k + nb - q) % nb)
  | .left, fill => if q ≤ k then L (k - q) else fillByte fill
  | .right, .ring => L ((k + q) % nb)
  | .right, fill => if k + q < nb then L (k + q) else fillByte fill

/-- The boundary byte of the sub-bit phase (R123, R124, R125): the fill byte, or under ring the byte at the opposite end,
captured after the whole-byte phase. -/
def boundaryByte (dir : Direction) (fill : Fill) (nb : Nat) (M : Nat → Byte) : Byte :=
  match dir, fill with
  | .left, .ring => M (nb - 1)
  | .right, .ring => M 0
  | _, fill => fillByte fill

/-- The 16-bit window of two neighbouring bytes (R123, R124). -/
def window (upper lower : Byte) : BitVec 16 := upper.setWidth 16 <<< 8 ||| lower.setWidth 16

/-- The sub-bit phase by `t` bits (R123, R124): logical byte `k` of `R`. Every neighbour is read from `M`. -/
def subBitPhase (dir : Direction) (fill : Fill) (nb t : Nat) (M : Nat → Byte) (k : Nat) : Byte :=
  match dir with
  | .left =>
    let lower := if 0 < k then M (k - 1) else boundaryByte .left fill nb M
    ((window (M k) lower <<< t) >>> 8).setWidth 8
  | .right =>
    let upper := if k < nb - 1 then M (k + 1) else boundaryByte .right fill nb M
    (window upper (M k) >>> t).setWidth 8

/-- Both phases by `p` bits (R120): each runs only when its count is not 0. -/
def shiftedByte (dir : Direction) (fill : Fill) (nb p : Nat) (L : Nat → Byte) (k : Nat) : Byte :=
  let M : Nat → Byte := if p / 8 = 0 then L else wholeBytePhase dir fill nb (p / 8) L
  if p % 8 = 0 then M k else subBitPhase dir fill nb (p % 8) M k

/-- `engine(dir, fill)` after `check_ref` (42_shift_engine.md section 3). -/
def engine (dir : Direction) (fill : Fill) (positions : Nat) (s : State) : State :=
  match normalizePositions s.W positions fill with
  | .noop => s.respond 0 0
  | .saturate => (s.fillAll (fillByte fill)).respond 0 0
  | .count p => (s.storeLogical (shiftedByte dir fill s.par.nb p s.logicalByte)).respond 0 0

/-- `SHL.Z p` (R130). -/
def execShlZ (positions : Nat) (s : State) : Host.Outcome State Fault Refusal :=
  runCommand s [] (engine .left .zero positions)

/-- `SHL.O p` (R131). -/
def execShlO (positions : Nat) (s : State) : Host.Outcome State Fault Refusal :=
  runCommand s [] (engine .left .one positions)

/-- `SHL.R p`, `ROL p` (R132). -/
def execShlR (positions : Nat) (s : State) : Host.Outcome State Fault Refusal :=
  runCommand s [] (engine .left .ring positions)

/-- `SHR.Z p` (R133). -/
def execShrZ (positions : Nat) (s : State) : Host.Outcome State Fault Refusal :=
  runCommand s [] (engine .right .zero positions)

/-- `SHR.O p` (R134). -/
def execShrO (positions : Nat) (s : State) : Host.Outcome State Fault Refusal :=
  runCommand s [] (engine .right .one positions)

/-- `SHR.R p`, `ROR p` (R135). -/
def execShrR (positions : Nat) (s : State) : Host.Outcome State Fault Refusal :=
  runCommand s [] (engine .right .ring positions)

end Sys2Proof.Machine
end

