-- ==== Sys2Proof/Machine/Dispatch.lean ====
section
/-!
DEFINITION. One arm per command.
-/

namespace Sys2Proof.Machine

def exec (i : Instr) (s : State) : Host.Outcome State Fault Refusal :=
  match i with
  | .get index => Sys2Proof.Machine.execGet index s
  | .set index value => Sys2Proof.Machine.execSet index value s
  | .toggle index => Sys2Proof.Machine.execToggle index s
  | .swap index1 index2 => Sys2Proof.Machine.execSwap index1 index2 s
  | .setAll value => Sys2Proof.Machine.execSetAll value s
  | .shlZ positions => Sys2Proof.Machine.execShlZ positions s
  | .shlO positions => Sys2Proof.Machine.execShlO positions s
  | .shlR positions => Sys2Proof.Machine.execShlR positions s
  | .shrZ positions => Sys2Proof.Machine.execShrZ positions s
  | .shrO positions => Sys2Proof.Machine.execShrO positions s
  | .shrR positions => Sys2Proof.Machine.execShrR positions s
  | .map index => Sys2Proof.Machine.execMap index s

end Sys2Proof.Machine
end

