-- ==== Sys2Proof/Machine/HostInterface.lean ====
section
/-!
DEFINITION. What each action of the host does: the command interface, the register port, the storage port and reset.
-/

namespace Sys2Proof.Machine

/-- The command interface (R60): a command whose operands the buses carry is decoded and run, or is illegal (R156). -/
def issueCommand (c : Command) (s : State) : Host.Outcome State Fault Refusal :=
  if c.fits s.par.argWidth then
    match decode c with
    | .ok i => exec i s
    | .error _ => illegalCommand c.cmd s
  else .refused .operandTooWide

/-- A register read: its value, with no side effect, also while halted (R28, R153). -/
def readRegister (r : Nat) (s : State) : Host.Outcome State Fault Refusal :=
  .next { s with answer := some (.register (s.register r)) }

/-- A register write has no effect (R24, R25; log entry 12). -/
def writeRegister (_r _v : Nat) (s : State) : Host.Outcome State Fault Refusal :=
  .next s.noAnswer

/-- Whether the storage port reaches byte `b` (R44, R171). -/
def State.hasByte (s : State) (b : Nat) : Bool := s.par.attached && decide (b < s.par.nb)

/-- `MemRead(b, 1)` on the storage port, also while halted (R44, R153). -/
def readStorage (b : Nat) (s : State) : Host.Outcome State Fault Refusal :=
  if s.hasByte b then .next { s with answer := some (.byte (s.byteAt b)) } else .fault (.noSuchByte b)

/-- `MemWrite(b, 1, v)` on the storage port, also while halted (R44, R153). -/
def writeStorage (b : Nat) (v : Byte) (s : State) : Host.Outcome State Fault Refusal :=
  if s.hasByte b then .next (s.writeByte b v).noAnswer else .fault (.noSuchByte b)

/-- Reset (R170). -/
def resetBlock (s : State) : Host.Outcome State Fault Refusal := .next s.applyReset

/-- One action of the host. -/
def perform (a : HostAction) (s : State) : Host.Outcome State Fault Refusal :=
  match a with
  | .command c => issueCommand c s
  | .readRegister r => readRegister r s
  | .writeRegister r v => writeRegister r v s
  | .readByte b => readStorage b s
  | .writeByte b v => writeStorage b v s
  | .reset => resetBlock s

/-- One step: the host's next action takes effect as one atomic step (R46, R50); with none to come the block is idle and
keeps every piece of state (R169). Parameters of no block are refused (R6, R11, R12). -/
def stepHost (s : State) : Host.Outcome State Fault Refusal :=
  if s.par.wf then
    match s.pending with
    | [] => .next s
    | a :: rest => perform a { s with pending := rest }
  else .refused .noSuchBlock

/-- The host with one more action to take before all others. -/
def State.withNextAction (s : State) (a : HostAction) : State := { s with pending := a :: s.pending }

end Sys2Proof.Machine
end

