-- ==== Sys2Proof/Machine/Step.lean ====
section
/-!
DEFINITION. One step of the machine, and placing a command where the next step takes it.
-/

namespace Sys2Proof.Machine

/-- One step (see stepHost). -/
def step (s : State) : Host.Outcome State Fault Refusal := stepHost s

/-- `s` with the command of that word, its buses 0, as the host's next action: the block takes its commands from the host
and never from its storage (R53, R60; log entry 1). -/
def State.withFetchWord (s : State) (nbits w : Nat) : State :=
  s.withNextAction (.command (commandOfBits nbits w))

end Sys2Proof.Machine
end

