-- ==== Sys2Proof/Safety.lean ====
section
/-!
DEFINITION. The terms claims are stated in: a block that is ready, the invariant of the state, a host that keeps its
duties, and the logical definition of the shifts (R112, R113), which the machine's two-phase engine is held against.
-/

namespace Sys2Proof.Machine

/-- A block that takes commands and has storage: not halted (R153), `ATTACHED = true` (R154). -/
abbrev State.Ready (s : State) : Prop := s.faulted = false ∧ s.par.attached = true

/-- The cause an out-of-range index raises, by mode (R83). -/
def State.indexCause (s : State) (i : Nat) : Cause :=
  if s.par.checked then .indexOutOfRange i else .unspecified i

/-- `t` is `s` after a command that completed with response `(OK, r0, r1)`: only the storage and the answer may differ
(R62, R90). -/
abbrev State.CompletedAs (s t : State) (r0 r1 : Nat) : Prop :=
  t = { s with storage := t.storage, answer := some (.response { rstatus := .ok, r0 := r0, r1 := r1 }) }

/-- The twelve legal command words (R69). -/
def legalWords : List CmdWord :=
  [0x00000001, 0x00000002, 0x00000003, 0x00000004, 0x00000005, 0x00000006, 0x00000016, 0x00000026,
   0x00000007, 0x00000017, 0x00000027, 0x00000008]

/-- The index operands a command makes its range check on, in bus order (R83, R90). -/
def indexOperands : Instr → List Nat
  | .get i => [i]
  | .set i _ => [i]
  | .toggle i => [i]
  | .swap i j => [i, j]
  | .setAll _ => []
  | .shlZ _ => []
  | .shlO _ => []
  | .shlR _ => []
  | .shrZ _ => []
  | .shrO _ => []
  | .shrR _ => []
  | .map i => [i]

/-- The shift command of a direction and a fill policy (R130 to R135). -/
def shiftCommand : Direction → Fill → Nat → Instr
  | .left, .zero, p => .shlZ p
  | .left, .one, p => .shlO p
  | .left, .ring, p => .shlR p
  | .right, .zero, p => .shrZ p
  | .right, .one, p => .shrO p
  | .right, .ring, p => .shrR p

/-- The fill bit `f` of the zero and one policies. -/
def fillBit : Fill → Bool
  | .zero => false
  | .one => true
  | .ring => false

/-- `V'[i]` of a shift of `V` by a normalized count `p`, `0 < p < W` (R112, R113). -/
def shiftedBit (dir : Direction) (fill : Fill) (W p V i : Nat) : Bool :=
  match dir, fill with
  | .left, .ring => V.testBit ((i + W - p) % W)
  | .left, fill => if p ≤ i then V.testBit (i - p) else fillBit fill
  | .right, .ring => V.testBit ((i + p) % W)
  | .right, fill => if i < W - p then V.testBit (i + p) else fillBit fill

/-- `V'` as an integer, for a normalized count `p`, `0 < p < W` (R112, R113). -/
def shiftedValue (dir : Direction) (fill : Fill) (W p V : Nat) : Nat :=
  match dir, fill with
  | .left, .zero => (V <<< p) % 2 ^ W
  | .left, .one => (V <<< p) % 2 ^ W ||| (2 ^ p - 1)
  | .left, .ring => (V <<< p ||| V >>> (W - p)) % 2 ^ W
  | .right, .zero => V >>> p
  | .right, .one => V >>> p ||| (2 ^ W - 2 ^ (W - p))
  | .right, .ring => V >>> p ||| (V <<< (W - p)) % 2 ^ W

/-- The values STATUS takes: 0, or FAULTED with a code from 1 to 4 (R26, R151). -/
def legalStatus : List (BitVec 32) := [0x00000000, 0x00000011, 0x00000021, 0x00000031, 0x00000041]

/-- The response fields fit in `w` bits (R62). -/
def answerFits (w : Nat) : Option Answer → Bool
  | some (.response r) => decide (r.r0 < 2 ^ w) && decide (r.r1 < 2 ^ w)
  | some (.register _) => true
  | some (.byte _) => true
  | none => true

/-- The invariant: the parameters are those of a block (R6, R11, R12), the storage is in canonical form and inside
`0 .. NB-1` (R40), there is none when `ATTACHED = false` (R171), STATUS is legal and FAULT_INFO is 0 with it (R26, R27),
and FAULT_INFO and the response fit in `ARG_WIDTH` bits (R27, R62). -/
def State.Inv (s : State) : Prop :=
  s.par.wf = true ∧ Memory.wf s.storage ∧ Memory.below s.par.nb s.storage ∧
    (s.par.attached = false → s.storage = []) ∧ s.status ∈ legalStatus ∧ (s.status = 0 → s.faultInfo = 0) ∧
    s.faultInfo < 2 ^ s.par.argWidth ∧ answerFits s.par.argWidth s.answer = true

/-- An action within the host's duties: the operands of a command fit their buses (R61), and a storage access stays in
the storage (R44, R181). -/
def State.allows (s : State) : HostAction → Bool
  | .command c => c.fits s.par.argWidth
  | .readRegister _ => true
  | .writeRegister _ _ => true
  | .readByte b => s.hasByte b
  | .writeByte b _ => s.hasByte b
  | .reset => true

/-- A host that keeps its duties in everything it still has to do (R180, R181). -/
abbrev State.Dutiful (s : State) : Prop := ∀ a ∈ s.pending, s.allows a = true

end Sys2Proof.Machine
end

