-- ==== Sys2Proof/Certificates/Slice0/Obligations.lean ====
section
/-!
DEFINITION. The statements for the provers, from the spec's numbered rules.
-/

open Sys2Proof Sys2Proof.Machine

/-! ### Encoding -/

/-- A command decodes to `i` exactly when it is the encoding of `i` on its word and on the buses `i` uses; so decoding an
encoded command gives it back at every operand, and no bit of a word and no used bus is dropped (R61, R63 to R65, R70,
R72). -/
def Obligations.DecodeAndEncodeAgree : Prop :=
  (∀ i : Instr, decode (encode i) = .ok i) ∧
  ∀ (i : Instr) (c : Command),
    decode c = .ok i ↔
      encode i = { cmd := c.cmd, a := if i.usesA then c.a else 0, b := if i.usesB then c.b else 0 }

/-- R67: a command is legal exactly when its word is one of the twelve; every other word, the four cases the rule lists
among them, raises ILLEGAL_COMMAND. -/
def Obligations.OtherWordsAreIllegal : Prop :=
  (∀ c : Command, (∃ i, decode c = .ok i) ↔ c.cmd ∈ legalWords) ∧
  (∀ (s : State) (c : Command), s.faulted = false → c.fits s.par.argWidth = true → c.cmd ∉ legalWords →
    issueCommand c s = .next (s.enterFault (.illegalCommand c.cmd))) ∧
  ∀ w : CmdWord,
    (w.extractLsb' 0 4 = 0 ∨ 9 ≤ (w.extractLsb' 0 4).toNat) ∨ w.extractLsb' 6 26 ≠ 0 ∨
      ((w.extractLsb' 0 4 = 6 ∨ w.extractLsb' 0 4 = 7) ∧ w.extractLsb' 4 2 = 3) ∨
      ((w.extractLsb' 0 4 ≠ 6 ∧ w.extractLsb' 0 4 ≠ 7) ∧ w.extractLsb' 4 2 ≠ 0) → w ∉ legalWords

/-- The twelve words of R69 and the commands they select, and the two pseudo-instructions of R71. -/
def Obligations.TwelveWordsSelectTheirCommands : Prop :=
  (∀ a b : Nat,
    decode ⟨0x00000001, a, b⟩ = .ok (.get a) ∧ decode ⟨0x00000002, a, b⟩ = .ok (.set a b) ∧
    decode ⟨0x00000003, a, b⟩ = .ok (.toggle a) ∧ decode ⟨0x00000004, a, b⟩ = .ok (.swap a b) ∧
    decode ⟨0x00000005, a, b⟩ = .ok (.setAll b) ∧ decode ⟨0x00000006, a, b⟩ = .ok (.shlZ a) ∧
    decode ⟨0x00000016, a, b⟩ = .ok (.shlO a) ∧ decode ⟨0x00000026, a, b⟩ = .ok (.shlR a) ∧
    decode ⟨0x00000007, a, b⟩ = .ok (.shrZ a) ∧ decode ⟨0x00000017, a, b⟩ = .ok (.shrO a) ∧
    decode ⟨0x00000027, a, b⟩ = .ok (.shrR a) ∧ decode ⟨0x00000008, a, b⟩ = .ok (.map a)) ∧
  ∀ p : Nat, encode (rol p) = ⟨0x00000026, p, 0⟩ ∧ encode (ror p) = ⟨0x00000027, p, 0⟩

/-- R72: a bus the command does not use changes neither the result, nor the response, nor any fault. -/
def Obligations.UnusedBusIsIgnored : Prop :=
  ∀ (s : State) (c d : Command), c.fits s.par.argWidth = true → d.fits s.par.argWidth = true → c.cmd = d.cmd →
    (∀ i, decode c = .ok i → (i.usesA = true → c.a = d.a) ∧ (i.usesB = true → c.b = d.b)) →
    issueCommand c s = issueCommand d s

/-! ### The step -/

/-- A step whose next host action is a command that decodes to `i` runs `i`: step is exec of `i` at the state in which
that action is taken. That the host's actions are a list held in State is the model's own choice (log entry 1);
`withFetchWord`, which makes the command of a table word with both buses 0 that next action, is too (log entry 19). -/
def Obligations.StepRunsTheDecodedCommand : Prop :=
  (∀ (s : State) (c : Command) (i : Instr) (rest : List HostAction),
    s.par.wf = true → s.pending = .command c :: rest → c.fits s.par.argWidth = true → decode c = .ok i →
    i.wf s.par.argWidth = true ∧ step s = exec i { s with pending := rest }) ∧
  ∀ (s : State) (nbits w : Nat) (i : Instr), s.par.wf = true → decodeTableWord nbits w = some i →
    step (s.withFetchWord nbits w) = exec i s

/-- The host's actions take effect one a step, in the order it issues them; with none to come the block is idle and every
piece of state survives. The list of the actions to come is the model's own (log entries 1 and 17). -/
def Obligations.ActionsTakeEffectInOrder : Prop :=
  ∀ s : State,
    (s.par.wf = true → s.pending = [] → step s = .next s) ∧
    (∀ a rest, s.par.wf = true → s.pending = a :: rest → step s = perform a { s with pending := rest }) ∧
    ∀ a t, perform a s = .next t → t.pending = s.pending

/-- The moves the spec gives the host none of stop the model, each by its own name: an access to a byte that does not
exist, an operand no bus can carry, and parameters of no block. The names are the model's (log entry 8). -/
def Obligations.MovesTheSpecLacksStopByName : Prop :=
  ∀ s : State,
    (∀ b v, s.par.attached = false ∨ s.par.nb ≤ b →
      perform (.readByte b) s = .fault (.noSuchByte b) ∧ perform (.writeByte b v) s = .fault (.noSuchByte b)) ∧
    (∀ c : Command, c.fits s.par.argWidth = false → perform (.command c) s = .refused .operandTooWide) ∧
    (s.par.wf = false → step s = .refused .noSuchBlock)

/-! ### The mapper -/

/-- R81: the physical byte of a logical byte in both byte orders, and the address of a logical bit index in range. -/
def Obligations.AddressMapping : Prop :=
  ∀ s : State,
    (∀ i, i < s.W →
      (s.addr i).1 < s.par.nb ∧ (s.addr i).2 < 8 ∧ s.addr i = (s.phys (i / 8), i % 8) ∧
      (s.par.endian = .little → s.addr i = (i / 8, i % 8)) ∧
      (s.par.endian = .big → s.addr i = (s.par.nb - 1 - i / 8, i % 8))) ∧
    (∀ k, k < s.par.nb →
      (s.par.endian = .little → s.phys k = k) ∧ (s.par.endian = .big → s.phys k = s.par.nb - 1 - k))

/-- R82: under the mapping the storage reads as one unsigned integer of `W` bits in both byte orders; the mapping is a
bijection onto the bits of the bytes; the byte orders differ only in the order of the bytes. -/
def Obligations.StorageReadsAsOneInteger : Prop :=
  (∀ s : State,
    s.value < 2 ^ s.W ∧
    (∀ i, i < s.W → (s.addr i).1 < s.par.nb ∧ (s.addr i).2 < 8 ∧
      s.value.testBit i = (s.byteAt (s.addr i).1).getLsbD (s.addr i).2) ∧
    (∀ i j, i < s.W → j < s.W → s.addr i = s.addr j → i = j) ∧
    (∀ b k, b < s.par.nb → k < 8 → ∃ i, i < s.W ∧ s.addr i = (b, k))) ∧
  ∀ s t : State, s.par.endian = .little → t.par.endian = .big → s.par.nb = t.par.nb →
    (s.value = t.value ↔ ∀ b, b < s.par.nb → s.byteAt b = t.byteAt (s.par.nb - 1 - b))

/-- R43: a physical byte holds eight neighbouring logical bits, and the array is the sum of its bytes at their weights. -/
def Obligations.ValueIsTheSumOfItsBytes : Prop :=
  ∀ s : State,
    s.value = ∑ k ∈ Finset.range s.par.nb, (s.byteAt (s.phys k)).toNat * 2 ^ (8 * k) ∧
    ∀ b j, b < s.par.nb → j < 8 →
      (s.byteAt b).getLsbD j =
        s.value.testBit (8 * (match s.par.endian with | .little => b | .big => s.par.nb - 1 - b) + j)

/-- R85: `MAP a` responds the physical byte and offset of logical bit `a`, writes nothing, and faults where the rule says. -/
def Obligations.MapRespondsTheLocation : Prop :=
  ∀ (s : State) (a : Nat), s.faulted = false →
    (∀ b, decode ⟨0x00000008, a, b⟩ = .ok (.map a)) ∧
    (s.par.attached = true → a < s.W →
      exec (.map a) s =
        .next { s with answer := some (.response {
          rstatus := .ok
          r0 := match s.par.endian with | .little => a / 8 | .big => s.par.nb - 1 - a / 8
          r1 := a % 8 }) }) ∧
    (s.par.attached = false → exec (.map a) s = .next (s.enterFault .invalidReference)) ∧
    (s.par.attached = true → s.W ≤ a → s.par.checked = true → exec (.map a) s = .next (s.enterFault (.indexOutOfRange a))) ∧
    (s.par.attached = true → s.W ≤ a → s.par.checked = false → exec (.map a) s = .next (s.enterFault (.unspecified a)))

/-! ### The accessors -/

/-- R91: `GET a` responds logical bit `a` of the integer, 0 or 1, writes nothing, and faults where the rule says. -/
def Obligations.GetRespondsTheBit : Prop :=
  ∀ (s : State) (a : Nat), s.faulted = false →
    (∀ b, decode ⟨0x00000001, a, b⟩ = .ok (.get a)) ∧
    (s.par.attached = true → a < s.W →
      exec (.get a) s =
        .next { s with answer := some (.response { rstatus := .ok, r0 := if s.value.testBit a then 1 else 0, r1 := 0 }) }) ∧
    (s.par.attached = false → exec (.get a) s = .next (s.enterFault .invalidReference)) ∧
    (s.par.attached = true → s.W ≤ a → s.par.checked = true → exec (.get a) s = .next (s.enterFault (.indexOutOfRange a))) ∧
    (s.par.attached = true → s.W ≤ a → s.par.checked = false → exec (.get a) s = .next (s.enterFault (.unspecified a)))

/-- R92: `SET a, v` makes the one addressed bit 1 for `v != 0` and 0 for `v = 0`; every other bit of every byte, and all
else but the response, stays; it faults where the rule says. -/
def Obligations.SetWritesOneBit : Prop :=
  ∀ (s : State) (a v : Nat), s.faulted = false →
    decode ⟨0x00000002, a, v⟩ = .ok (.set a v) ∧
    (s.par.attached = true → a < s.W →
      ∃ t, exec (.set a v) s = .next t ∧ s.CompletedAs t 0 0 ∧
        ∀ b k, (t.byteAt b).getLsbD k =
          if b = (s.addr a).1 ∧ k = (s.addr a).2 then decide (v ≠ 0) else (s.byteAt b).getLsbD k) ∧
    (s.par.attached = false → exec (.set a v) s = .next (s.enterFault .invalidReference)) ∧
    (s.par.attached = true → s.W ≤ a → s.par.checked = true → exec (.set a v) s = .next (s.enterFault (.indexOutOfRange a))) ∧
    (s.par.attached = true → s.W ≤ a → s.par.checked = false → exec (.set a v) s = .next (s.enterFault (.unspecified a)))

/-- R93: `TOGGLE a` flips the one addressed bit and nothing else but the response; a second one restores every byte; it
faults where the rule says. -/
def Obligations.ToggleFlipsOneBit : Prop :=
  ∀ (s : State) (a : Nat), s.faulted = false →
    (∀ b, decode ⟨0x00000003, a, b⟩ = .ok (.toggle a)) ∧
    (s.par.attached = true → a < s.W →
      ∃ t, exec (.toggle a) s = .next t ∧ s.CompletedAs t 0 0 ∧
        (∀ b k, (t.byteAt b).getLsbD k =
          if b = (s.addr a).1 ∧ k = (s.addr a).2 then !(s.byteAt b).getLsbD k else (s.byteAt b).getLsbD k) ∧
        ∃ u, exec (.toggle a) t = .next u ∧ ∀ b, u.byteAt b = s.byteAt b) ∧
    (s.par.attached = false → exec (.toggle a) s = .next (s.enterFault .invalidReference)) ∧
    (s.par.attached = true → s.W ≤ a → s.par.checked = true →
      exec (.toggle a) s = .next (s.enterFault (.indexOutOfRange a))) ∧
    (s.par.attached = true → s.W ≤ a → s.par.checked = false → exec (.toggle a) s = .next (s.enterFault (.unspecified a)))

/-- R94: `SWAP a, b` exchanges the two logical bits and changes nothing else but the response, in the same byte, in two
bytes, and for equal indices, which leave every byte as it was; `A` is checked before `B`. -/
def Obligations.SwapExchangesTwoBits : Prop :=
  ∀ (s : State) (a b : Nat), s.faulted = false →
    decode ⟨0x00000004, a, b⟩ = .ok (.swap a b) ∧
    (s.par.attached = true → a < s.W → b < s.W →
      ∃ t, exec (.swap a b) s = .next t ∧ s.CompletedAs t 0 0 ∧
        (∀ c k, (t.byteAt c).getLsbD k =
          if (c, k) = s.addr a then s.value.testBit b
          else if (c, k) = s.addr b then s.value.testBit a else (s.byteAt c).getLsbD k) ∧
        (a = b ∨ s.value.testBit a = s.value.testBit b → ∀ c, t.byteAt c = s.byteAt c)) ∧
    (s.par.attached = false → exec (.swap a b) s = .next (s.enterFault .invalidReference)) ∧
    (s.par.attached = true → s.W ≤ a → exec (.swap a b) s = .next (s.enterFault (s.indexCause a))) ∧
    (s.par.attached = true → a < s.W → s.W ≤ b → exec (.swap a b) s = .next (s.enterFault (s.indexCause b)))

/-- R95: `SET_ALL v` makes every storage byte 0xFF for `v != 0` and 0x00 for `v = 0`, in either byte order, so that `V` is
`2^W - 1` or 0; nothing else but the response changes; with no storage it faults. -/
def Obligations.SetAllFillsEveryByte : Prop :=
  ∀ (s : State) (v : Nat), s.faulted = false →
    (∀ a, decode ⟨0x00000005, a, v⟩ = .ok (.setAll v)) ∧
    (s.par.attached = true →
      ∃ t, exec (.setAll v) s = .next t ∧ s.CompletedAs t 0 0 ∧
        (∀ b, t.byteAt b = if b < s.par.nb then (if v = 0 then 0x00 else 0xFF) else s.byteAt b) ∧
        t.value = if v = 0 then 0 else 2 ^ s.W - 1) ∧
    (s.par.attached = false → exec (.setAll v) s = .next (s.enterFault .invalidReference))

/-- R96: a GET right after a SET of the same index responds the Boolean written, every other logical bit is unchanged, and
swapping an index with itself leaves the storage unchanged. -/
def Obligations.GetAfterSetRespondsTheValue : Prop :=
  ∀ (s : State) (i v : Nat), s.Ready → i < s.W →
    (∃ t, exec (.set i v) s = .next t ∧
      exec (.get i) t =
        .next { t with answer := some (.response { rstatus := .ok, r0 := if v = 0 then 0 else 1, r1 := 0 }) } ∧
      ∀ j, j < s.W → j ≠ i → t.value.testBit j = s.value.testBit j) ∧
    ∃ u, exec (.swap i i) s = .next u ∧ ∀ b, u.byteAt b = s.byteAt b

/-! ### The shift engine -/

/-- R111, R142: a zero count, and under ring a multiple of `W`, leave the storage as it was; under zero and one a count
of `W` or more sets every byte to the fill byte, as SET_ALL does; under ring a count is reduced `mod W`; any other count is
used as it is. -/
def Obligations.NormalizationOfPositions : Prop :=
  ∀ (s : State) (dir : Direction) (p : Nat), s.Ready → 1 ≤ s.par.nb →
    (∀ fill, exec (shiftCommand dir fill 0) s = .next (s.respond 0 0)) ∧
    (p % s.W = 0 → exec (shiftCommand dir .ring p) s = .next (s.respond 0 0)) ∧
    exec (shiftCommand dir .ring p) s = exec (shiftCommand dir .ring (p % s.W)) s ∧
    (s.W ≤ p →
      exec (shiftCommand dir .zero p) s = exec (.setAll 0) s ∧ exec (shiftCommand dir .one p) s = exec (.setAll 1) s ∧
      ∃ t u, exec (shiftCommand dir .zero p) s = .next t ∧ exec (shiftCommand dir .one p) s = .next u ∧
        ∀ b, b < s.par.nb → t.byteAt b = 0x00 ∧ u.byteAt b = 0xFF) ∧
    ∀ fill, 0 < p → p < s.W →
      ∃ t, exec (shiftCommand dir fill p) s = .next t ∧ t.value = shiftedValue dir fill s.W p s.value

/-- R112: `shift_left` by a normalized count, bit by bit and as an integer, under each fill policy. -/
def Obligations.ShiftLeftMovesEveryBit : Prop :=
  ∀ (s : State) (fill : Fill) (p : Nat), s.Ready → 0 < p → p < s.W →
    ∃ t, exec (shiftCommand .left fill p) s = .next t ∧ s.CompletedAs t 0 0 ∧
      (∀ i, i < s.W → t.value.testBit i = shiftedBit .left fill s.W p s.value i) ∧
      t.value = shiftedValue .left fill s.W p s.value

/-- R113: `shift_right` by a normalized count, bit by bit and as an integer, under each fill policy. -/
def Obligations.ShiftRightMovesEveryBit : Prop :=
  ∀ (s : State) (fill : Fill) (p : Nat), s.Ready → 0 < p → p < s.W →
    ∃ t, exec (shiftCommand .right fill p) s = .next t ∧ s.CompletedAs t 0 0 ∧
      (∀ i, i < s.W → t.value.testBit i = shiftedBit .right fill s.W p s.value i) ∧
      t.value = shiftedValue .right fill s.W p s.value

/-- R120, R121, R123, R124: a shift by a normalized count `p` moves the logical bytes by `p / 8` bytes, filling the vacated
ones with the fill byte or, under ring, with those pushed off the far end; then, if `p % 8` is not 0, it carries `p % 8`
bits of each moved byte into its neighbour, the boundary byte being the fill byte or, under ring, the moved byte at the
opposite end. -/
def Obligations.TwoPhaseAlgorithm : Prop :=
  ∀ (s : State) (dir : Direction) (fill : Fill) (p : Nat), s.Ready → 0 < p → p < s.W →
    ∃ t, exec (shiftCommand dir fill p) s = .next t ∧
      ∃ M : Nat → Byte,
        (∀ k, k < s.par.nb → M k =
          match dir with
          | .left =>
            if p / 8 ≤ k then s.logicalByte (k - p / 8)
            else match fill with | .zero => 0x00 | .one => 0xFF | .ring => s.logicalByte (k + s.par.nb - p / 8)
          | .right =>
            if k + p / 8 < s.par.nb then s.logicalByte (k + p / 8)
            else match fill with | .zero => 0x00 | .one => 0xFF | .ring => s.logicalByte (k + p / 8 - s.par.nb)) ∧
        ∀ k, k < s.par.nb → t.byteAt (t.phys k) =
          if p % 8 = 0 then M k
          else
            match dir with
            | .left =>
              (M k <<< (p % 8)) |||
                ((if 0 < k then M (k - 1)
                  else match fill with | .zero => 0x00 | .one => 0xFF | .ring => M (s.par.nb - 1)) >>> (8 - p % 8))
            | .right =>
              (M k >>> (p % 8)) |||
                ((if k < s.par.nb - 1 then M (k + 1)
                  else match fill with | .zero => 0x00 | .one => 0xFF | .ring => M 0) <<< (8 - p % 8))

/-- A shift by a whole number of bytes moves the logical bytes, and fills the vacated ones with the fill byte, or
under ring with the bytes pushed off the far end: the whole-byte phase seen alone. -/
def Obligations.WholeByteShiftMovesTheBytes : Prop :=
  ∀ (s : State) (q k : Nat), s.Ready → 0 < q → q < s.par.nb → k < s.par.nb →
    (∀ t, exec (.shlZ (8 * q)) s = .next t → t.logicalByte k = if q ≤ k then s.logicalByte (k - q) else 0x00) ∧
    (∀ t, exec (.shlO (8 * q)) s = .next t → t.logicalByte k = if q ≤ k then s.logicalByte (k - q) else 0xFF) ∧
    (∀ t, exec (.shlR (8 * q)) s = .next t →
      t.logicalByte k = if q ≤ k then s.logicalByte (k - q) else s.logicalByte (k + s.par.nb - q)) ∧
    (∀ t, exec (.shrZ (8 * q)) s = .next t → t.logicalByte k = if k + q < s.par.nb then s.logicalByte (k + q) else 0x00) ∧
    (∀ t, exec (.shrO (8 * q)) s = .next t → t.logicalByte k = if k + q < s.par.nb then s.logicalByte (k + q) else 0xFF) ∧
    ∀ t, exec (.shrR (8 * q)) s = .next t →
      t.logicalByte k = if k + q < s.par.nb then s.logicalByte (k + q) else s.logicalByte (k + q - s.par.nb)

/-- A shift by 1 to 7 bits carries the high or low bits of each byte into its neighbour, and takes the boundary
byte from the fill byte, or under ring from the opposite end of the array as it stood before the phase: the sub-bit phase
seen alone. -/
def Obligations.SubBitShiftCarriesBetweenBytes : Prop :=
  ∀ (s : State) (n k : Nat), s.Ready → 1 ≤ n → n ≤ 7 → k < s.par.nb →
    (∀ fill t, exec (shiftCommand .left fill n) s = .next t →
      t.logicalByte k = (s.logicalByte k <<< n) |||
        ((if 0 < k then s.logicalByte (k - 1)
          else match fill with | .zero => 0x00 | .one => 0xFF | .ring => s.logicalByte (s.par.nb - 1)) >>> (8 - n))) ∧
    ∀ fill t, exec (shiftCommand .right fill n) s = .next t →
      t.logicalByte k = (s.logicalByte k >>> n) |||
        ((if k < s.par.nb - 1 then s.logicalByte (k + 1)
          else match fill with | .zero => 0x00 | .one => 0xFF | .ring => s.logicalByte 0) <<< (8 - n))

/-- Every shift command, at every count, completes on a ready block: it responds `(OK, 0, 0)`, changes no byte outside the
`NB` bytes of storage and nothing else of the state, and `V'` is as it was for a zero count (under ring a multiple of
`W`), the fill pattern for a count of `W` or more under zero and one, and otherwise the shift of R112 or R113 (under ring
by the count `mod W`). -/
def Obligations.ShiftsCompleteAtEveryCount : Prop :=
  ∀ (s : State) (dir : Direction) (fill : Fill) (p : Nat), s.Ready →
    ∃ t, exec (shiftCommand dir fill p) s = .next t ∧ s.CompletedAs t 0 0 ∧
      (∀ b, s.par.nb ≤ b → t.byteAt b = s.byteAt b) ∧
      t.value =
        match fill with
        | .ring => if p % s.W = 0 then s.value else shiftedValue dir .ring s.W (p % s.W) s.value
        | fill =>
          if p = 0 then s.value
          else if s.W ≤ p then (if fill = .one then 2 ^ s.W - 1 else 0)
          else shiftedValue dir fill s.W p s.value

/-- R110: a shift's result is defined once for the logical integer: the same `V` and the same command give the same `V'`,
whatever the byte orders of the two blocks. -/
def Obligations.ShiftsDoNotDependOnByteOrder : Prop :=
  ∀ (s u : State) (dir : Direction) (fill : Fill) (p : Nat), s.Ready → u.Ready → s.par.nb = u.par.nb → s.value = u.value →
    ∃ t v, exec (shiftCommand dir fill p) s = .next t ∧ exec (shiftCommand dir fill p) u = .next v ∧ t.value = v.value ∧
      ∀ k, k < s.par.nb → (t.byteAt (t.phys k)).toNat = t.value / 2 ^ (8 * k) % 2 ^ 8

/-- R140: `SHL.Z p` then `SHR.Z p` keeps the low `W - p` bits and clears the top `p`; `SHR.Z p` then `SHL.Z p` keeps the
high `W - p` bits and clears the low `p`; for `p >= W` the result is all zero. -/
def Obligations.ShiftRoundTrip : Prop :=
  ∀ (s : State) (p : Nat), s.Ready →
    ∃ t u v w, exec (.shlZ p) s = .next t ∧ exec (.shrZ p) t = .next u ∧
      exec (.shrZ p) s = .next v ∧ exec (.shlZ p) v = .next w ∧
      (p < s.W → u.value = s.value % 2 ^ (s.W - p) ∧ w.value = s.value / 2 ^ p * 2 ^ p) ∧
      (s.W ≤ p → u.value = 0 ∧ w.value = 0)

/-- R141: rotating right undoes rotating left by the same count, at every byte, and a full-width rotation changes none. -/
def Obligations.RotateInverse : Prop :=
  ∀ (s : State) (p : Nat), s.Ready →
    (∃ t u, exec (.shlR p) s = .next t ∧ exec (.shrR p) t = .next u ∧ ∀ b, u.byteAt b = s.byteAt b) ∧
    ∃ t, exec (.shlR s.W) s = .next t ∧ ∀ b, t.byteAt b = s.byteAt b

/-- `SHL.Z p` is multiplication by `2^p` modulo `2^W`, and `SHR.Z p` is the floor of the division by `2^p`, at every
count. -/
def Obligations.ZeroFillShiftsAreArithmetic : Prop :=
  ∀ (s : State) (p : Nat), s.Ready →
    (∃ t, exec (.shlZ p) s = .next t ∧ t.value = s.value * 2 ^ p % 2 ^ s.W) ∧
    ∃ t, exec (.shrZ p) s = .next t ∧ t.value = s.value / 2 ^ p

/-! ### Faults -/

/-- R152: fault entry sets FAULTED, FAULT_CODE and FAULT_INFO, ends the command with the response
`(FAULT, code, info)`, leaves every other bit of STATUS as it was, and, for the codes 1 to 3, changes nothing else. -/
def Obligations.FaultEntry : Prop :=
  ∀ (s : State) (w : CmdWord) (i : Nat),
    (∀ c code info,
      (c, code, info) ∈ [(Cause.illegalCommand w, 1, w.toNat % 2 ^ s.par.argWidth), (Cause.invalidReference, 2, 0),
        (Cause.indexOutOfRange i, 3, i), (Cause.unspecified i, 4, i)] →
      (s.enterFault c).faulted = true ∧ (s.enterFault c).faultCode = code ∧ (s.enterFault c).faultInfo = info ∧
      (s.enterFault c).answer = some (.response { rstatus := .fault, r0 := code, r1 := info }) ∧
      (∀ j, j ≠ 0 → (j < 4 ∨ 8 ≤ j) → (s.enterFault c).status.getLsbD j = s.status.getLsbD j) ∧
      (s.enterFault c).par = s.par ∧ (s.enterFault c).pending = s.pending) ∧
    ∀ c, c ∈ [Cause.illegalCommand w, Cause.invalidReference, Cause.indexOutOfRange i] →
      (s.enterFault c).storage = s.storage ∧ (s.enterFault c).draws = s.draws

/-- R153: a halted block executes and answers no command, legal or not, and stays as it is; both ports stay usable; only
reset leaves the halted state, and it does. -/
def Obligations.HaltedBlockTakesNoCommand : Prop :=
  ∀ s : State, s.faulted = true →
    (∀ c t, perform (.command c) s = .next t → t = { s with answer := none }) ∧
    (∀ r, perform (.readRegister r) s = .next { s with answer := some (.register (s.register r)) }) ∧
    (∀ b, s.par.attached = true → b < s.par.nb →
      perform (.readByte b) s = .next { s with answer := some (.byte (s.byteAt b)) } ∧
      ∀ v, ∃ t, perform (.writeByte b v) s = .next t ∧ t.byteAt b = v) ∧
    (∀ a t, perform a s = .next t → t.faulted = false → a = .reset) ∧
    ∃ t, perform .reset s = .next t ∧ t.faulted = false

/-- A command that the host issues to a halted block is taken from the host and gives a next state without an answer, so
that the host can go on to read the report or to reset. That it is taken is the model's own (log entry 4). -/
def Obligations.HaltedBlockLetsTheHostGoOn : Prop :=
  ∀ s : State, s.faulted = true →
    (∀ i, exec i s = .next { s with answer := none }) ∧
    ∀ c, c.fits s.par.argWidth = true → perform (.command c) s = .next { s with answer := none }

/-- R154: with no storage every legal command raises INVALID_REFERENCE, in checked and in unchecked mode. -/
def Obligations.NoStorageIsInvalidReference : Prop :=
  ∀ (s : State) (i : Instr), s.faulted = false → s.par.attached = false →
    exec i s = .next (s.enterFault .invalidReference)

/-- R83, R155: in checked mode the first index operand at or above `W` raises INDEX_OUT_OF_RANGE with that index; in
unchecked mode it is the Unspecified outcome with that index. A command whose index operands are in range, or that has
none, completes. -/
def Obligations.IndexCheckOfEveryCommand : Prop :=
  ∀ (s : State) (i : Instr), s.Ready →
    (∀ pre k post, indexOperands i = pre ++ k :: post → (∀ j ∈ pre, j < s.W) → s.W ≤ k →
      (s.par.checked = true → exec i s = .next (s.enterFault (.indexOutOfRange k))) ∧
      (s.par.checked = false → exec i s = .next (s.enterFault (.unspecified k)))) ∧
    ((∀ j ∈ indexOperands i, j < s.W) →
      ∃ t r0 r1, exec i s = .next t ∧ t.answer = some (.response { rstatus := .ok, r0 := r0, r1 := r1 }))

/-- R158: a command raises the first fault of the order illegal word, reference, index A, index B. -/
def Obligations.FaultPriority : Prop :=
  ∀ (s : State) (c : Command), s.faulted = false → c.fits s.par.argWidth = true →
    (c.cmd ∉ legalWords → perform (.command c) s = .next (s.enterFault (.illegalCommand c.cmd))) ∧
    (c.cmd ∈ legalWords → s.par.attached = false → perform (.command c) s = .next (s.enterFault .invalidReference)) ∧
    (c.cmd ∈ [(0x00000001 : CmdWord), 0x00000002, 0x00000003, 0x00000004, 0x00000008] → s.par.attached = true → s.W ≤ c.a →
      perform (.command c) s = .next (s.enterFault (s.indexCause c.a))) ∧
    (c.cmd = 0x00000004 → s.par.attached = true → c.a < s.W → s.W ≤ c.b →
      perform (.command c) s = .next (s.enterFault (s.indexCause c.b)))

/-- R159: a command that raises code 1, 2 or 3 leaves the storage exactly as it was. -/
def Obligations.FaultsArePrecise : Prop :=
  ∀ (s t : State) (c : Command), s.faulted = false → perform (.command c) s = .next t → t.faulted = true →
    t.faultCode ∈ [1, 2, 3] → t.storage = s.storage

/-- R156: an illegal word raises ILLEGAL_COMMAND whatever the mode, the storage and the operands, with the word in
FAULT_INFO. -/
def Obligations.IllegalWordFaultsInBothModes : Prop :=
  ∀ (s : State) (c : Command), s.faulted = false → c.fits s.par.argWidth = true → c.cmd ∉ legalWords →
    ∃ t, perform (.command c) s = .next t ∧ t.faulted = true ∧ t.faultCode = 1 ∧
      t.faultInfo = c.cmd.toNat % 2 ^ s.par.argWidth ∧ t.storage = s.storage ∧
      t.answer = some (.response { rstatus := .fault, r0 := 1, r1 := c.cmd.toNat % 2 ^ s.par.argWidth })

/-! ### Frames and responses -/

/-- What a command leaves: the parameters (and with them CFG and SIZE), the host's other actions, and every byte outside
the storage; one that completes leaves STATUS and FAULT_INFO and draws nothing; GET and MAP write no byte at all. That the
clause on the bytes outside the storage also covers the Unspecified outcome, where R157 promises nothing about memory
outside the block, is the model's own choice: addresses `NB` and above are no such memory (log entries 5 and 7). -/
def Obligations.CommandFrame : Prop :=
  ∀ (s t : State) (i : Instr), exec i s = .next t →
    t.par = s.par ∧ t.pending = s.pending ∧ (∀ b, s.par.nb ≤ b → t.byteAt b = s.byteAt b) ∧
    (∀ r0 r1, t.answer = some (.response { rstatus := .ok, r0 := r0, r1 := r1 }) →
      s.CompletedAs t r0 r1 ∧ ((∃ a, i = .get a ∨ i = .map a) → t.storage = s.storage))

/-- A command of a block that is not halted ends with a response: `OK` with `(bit, 0)` for GET, `(byte, offset)` for
MAP and `(0, 0)` for every other command, or `FAULT` with the values then in FAULT_CODE and FAULT_INFO. -/
def Obligations.EveryCommandEndsWithItsResponse : Prop :=
  ∀ (s : State) (i : Instr), s.faulted = false →
    ∃ t r0 r1, exec i s = .next t ∧
      ((t.faulted = false ∧ t.answer = some (.response { rstatus := .ok, r0 := r0, r1 := r1 }) ∧
          (∀ a, i = .get a → r0 = (if s.value.testBit a then 1 else 0) ∧ r1 = 0) ∧
          (∀ a, i = .map a → (r0, r1) = s.addr a) ∧
          ((∀ a, i ≠ .get a ∧ i ≠ .map a) → r0 = 0 ∧ r1 = 0)) ∨
        (t.faulted = true ∧ t.answer = some (.response { rstatus := .fault, r0 := r0, r1 := r1 }) ∧
          r0 = t.faultCode ∧ r1 = t.faultInfo))

/-- STATUS and FAULT_INFO change only when a command takes a fault and at reset (R20, R26). -/
def Obligations.StatusChangesOnlyByFaultAndReset : Prop :=
  ∀ (s t : State), step s = .next t → (t.status ≠ s.status ∨ t.faultInfo ≠ s.faultInfo) →
    s.pending.head? = some .reset ∨
      (s.faulted = false ∧ (∃ c, s.pending.head? = some (.command c)) ∧
        t.answer = some (.response { rstatus := .fault, r0 := t.faultCode, r1 := t.faultInfo }))

/-- No rule depends on SCRATCH_BYTES (R13, R47): the same command on blocks that differ in it alone gives states that
differ in it alone. -/
def Obligations.ScratchSizeIsNotObservable : Prop :=
  ∀ (s : State) (i : Instr) (n : Nat),
    ∃ t, exec i s = .next t ∧
      exec i { s with par := { s.par with scratchBytes := n } } = .next { t with par := { t.par with scratchBytes := n } }

/-! ### The host's ports and reset -/

/-- A register read gives CFG, SIZE, STATUS or FAULT_INFO, 0 for any other number, has no side effect, and is allowed
at any time. -/
def Obligations.RegisterReads : Prop :=
  ∀ (s : State) (r : Nat), ∃ v, perform (.readRegister r) s = .next { s with answer := some (.register v) } ∧
    (r = 0 → v = s.cfgReg.toNat) ∧ (r = 1 → v = s.sizeReg) ∧ (r = 2 → v = s.statusReg.toNat) ∧
    (r = 3 → v = s.faultInfo) ∧ (4 ≤ r → v = 0)

/-- R24, R25: the layout of CFG as the host reads it, every field hardwired to its parameter; SIZE, which fits in
`ARG_WIDTH` bits; and a write of either has no effect. -/
def Obligations.ConfigurationRegisters : Prop :=
  ∀ s : State,
    s.register 0 = s.cfgReg.toNat ∧ s.cfgReg.getLsbD 0 = decide (s.par.endian = .big) ∧
    s.cfgReg.getLsbD 1 = s.par.checked ∧ s.cfgReg.getLsbD 2 = s.par.attached ∧
    (∀ j, 3 ≤ j → s.cfgReg.getLsbD j = false) ∧
    (s.par.attached = true → s.register 1 = s.par.nb) ∧ (s.par.attached = false → s.register 1 = 0) ∧
    (s.par.wf = true → s.register 1 < 2 ^ s.par.argWidth) ∧
    (∀ r v, r = 0 ∨ r = 1 → perform (.writeRegister r v) s = .next { s with answer := none }) ∧
    ∀ t, step s = .next t → t.register 0 = s.register 0 ∧ t.register 1 = s.register 1

/-- The layout of STATUS as the host reads it, its reserved bits read as zero, and its legal codes (R26); and a write of
any register number changes no state (log entry 12). -/
def Obligations.StatusRegister : Prop :=
  ∀ s : State,
    s.register 2 = s.statusReg.toNat ∧ s.statusReg.getLsbD 0 = s.faulted ∧ s.statusReg.toNat / 16 = s.faultCode ∧
    (∀ j, 1 ≤ j → j < 4 → s.statusReg.getLsbD j = false) ∧ (∀ j, 8 ≤ j → s.statusReg.getLsbD j = false) ∧
    (s.Inv → s.faultCode ≤ 4 ∧ (s.faulted = false → s.faultCode = 0)) ∧
    ∀ r v, perform (.writeRegister r v) s = .next { s with answer := none }

/-- R44: between commands the storage port reads and writes any byte below `NB`; a read has no side effect, a write changes
that byte only, and later reads and later commands see it. -/
def Obligations.StoragePort : Prop :=
  ∀ (s : State) (b : Nat) (v : Byte), s.par.attached = true → b < s.par.nb →
    perform (.readByte b) s = .next { s with answer := some (.byte (s.byteAt b)) } ∧
    ∃ t, perform (.writeByte b v) s = .next t ∧ t = { s with storage := t.storage, answer := none } ∧
      (∀ c, t.byteAt c = if c = b then v else s.byteAt c) ∧
      perform (.readByte b) t = .next { t with answer := some (.byte v) } ∧
      ∀ i, i < s.W → (s.addr i).1 = b → t.value.testBit i = v.getLsbD (i % 8)

/-- After reset, of a halted block too, STATUS and FAULT_INFO are 0, CFG and SIZE take the parameters, and the storage is
the zero bytes or the caller's bytes, or there is none (R170, R171, R174). That a later reset of a borrowed block puts the
bytes of INIT back, also where they were changed since, is the model's reading of R170 and R171 (log entry 9). -/
def Obligations.ResetValues : Prop :=
  ∀ s : State, ∃ t, perform .reset s = .next t ∧ t.par = s.par ∧ t.status = 0 ∧ t.faulted = false ∧ t.faultCode = 0 ∧
    t.faultInfo = 0 ∧
    t.register 0 =
      (if s.par.endian = .big then 1 else 0) + (if s.par.checked then 2 else 0) + (if s.par.attached then 4 else 0) ∧
    t.register 1 = (if s.par.attached then s.par.nb else 0) ∧ t.register 2 = 0 ∧ t.register 3 = 0 ∧
    (s.par.attached = false → t.storage = []) ∧
    (s.par.attached = true → s.par.init = .zeroed → ∀ b, b < s.par.nb → t.byteAt b = 0x00) ∧
    ∀ bytes, s.par.attached = true → s.par.init = .borrowed bytes → bytes.length = s.par.nb →
      ∀ b, b < s.par.nb → bytes[b]? = some (t.byteAt b)

/-- `new(num_bits, …)` gives a block of `NB = ceil(num_bits / 8)` zero bytes wherever its parameters are those of a block
(R172), and none for `num_bits = 0` (R6). That a bus too narrow for the indices, which R11 rules out, gives none is the
model's own choice, as is construction as a definition beside the machine (log entries 8 and 16). -/
def Obligations.ConstructionByNew : Prop :=
  ∀ (numBits : Nat) (endian : Endian) (checked : Bool) (argWidth scratch : Nat),
    newBlock 0 endian checked argWidth scratch = none ∧
    (2 ^ argWidth < 8 * ((numBits + 7) / 8) → newBlock numBits endian checked argWidth scratch = none) ∧
    (0 < numBits → 8 * ((numBits + 7) / 8) ≤ 2 ^ argWidth → 1 ≤ scratch →
      ∃ s, newBlock numBits endian checked argWidth scratch = some s ∧ s.Inv ∧ s.Ready ∧ s.par.endian = endian ∧
        s.par.checked = checked ∧ numBits ≤ 8 * s.par.nb ∧ 8 * s.par.nb < numBits + 8 ∧
        (∀ b, b < s.par.nb → s.byteAt b = 0x00) ∧ s.value = 0)

/-- R173: `from_bytes` gives a block whose `NB` is the length less the header's size and whose storage is the bit
buffer, and none where the length is below the header's size or leaves no byte. -/
def Obligations.ConstructionFromBytes : Prop :=
  ∀ (data : List Byte) (header : Nat) (endian : Endian) (checked : Bool) (argWidth scratch : Nat),
    (∀ length, length ≤ header → fromBytesBlock data length header endian checked argWidth scratch = none) ∧
    (data ≠ [] → 8 * data.length ≤ 2 ^ argWidth → 1 ≤ scratch →
      ∃ s, fromBytesBlock data (header + data.length) header endian checked argWidth scratch = some s ∧ s.Inv ∧
        s.par.nb = data.length ∧ ∀ b, b < data.length → data[b]? = some (s.byteAt b))

/-! ### Invariants -/

/-- The state after reset, of every instance, meets the invariant. -/
def Obligations.ResetMeetsTheInvariant : Prop :=
  State.reset.Inv ∧ ∀ p : Params, p.wf = true → (State.construct p).Inv

/-- Every step keeps the invariant: the storage in canonical form and inside `0 .. NB-1`, STATUS a legal word, FAULT_INFO
and the response inside `ARG_WIDTH` bits, the parameters those of a block. -/
def Obligations.StepKeepsTheInvariant : Prop :=
  ∀ s t : State, s.Inv → step s = .next t → t.Inv

/-- A block with a host that keeps its duties never stops the model: every step answers a next state, and the host still
keeps its duties there (R180, R181, R185). That this holds of a command to a halted block, which the spec leaves unexecuted
and unanswered, is the model's own reading (log entry 4), as is the step of an idle block (log entry 17). -/
def Obligations.DutifulHostNeverStopsTheBlock : Prop :=
  ∀ s : State, s.par.wf = true → s.Dutiful → ∃ t, step s = .next t ∧ t.par = s.par ∧ t.Dutiful
end

