-- ==== Sys2Proof/Laws/Decode.lean ====
section
/-!
SUPPORT. The decoder on a command given by its parts, and the fields of a command word.
-/

namespace Sys2Proof

/-- Decoding reads the word's fields and hands the buses on. -/
theorem decode_mk (w : CmdWord) (a b : Nat) :
    decode { cmd := w, a := a, b := b } =
      match rsvField w with
      | 0 => decodeFields (opField w) (fillField w) a b
      | _ => .error .reservedBits := rfl

/-- A word is made of its three fields. -/
theorem word_of_fields (w : CmdWord) : w = BitVec.ofNat 32 (rsvField w * 64 + fillField w * 16 + opField w) := by
  apply BitVec.eq_of_toNat_eq
  have hw := w.isLt
  simp only [rsvField, fillField, opField, BitVec.toNat_ofNat]
  omega

theorem opField_lt (w : CmdWord) : opField w < 16 := Nat.mod_lt _ (by decide)

theorem fillField_lt (w : CmdWord) : fillField w < 4 := Nat.mod_lt _ (by decide)

/-- A word made of `OP` and `FILL` has `RSV = 0`. -/
theorem rsvField_commandWord {op fill : Nat} (ho : op < 16) (hf : fill < 4) : rsvField (commandWord op fill) = 0 := by
  simp only [rsvField, commandWord, BitVec.toNat_ofNat]
  omega

end Sys2Proof
end

