-- ==== Sys2Proof/Laws/Memory.lean ====
section
/-!
SUPPORT. The laws of the storage list: reads after writes, the canonical form, and the address bound.
-/

namespace Sys2Proof.Machine

theorem Memory.read_erase (m : Memory) (a b : Nat) :
    (Memory.erase m a).read b = if b = a then Memory.unlisted else m.read b := by
  induction m with
  | nil => simp [Memory.erase, Memory.read]
  | cons c rest ih =>
    by_cases hca : c.1 = a
    · by_cases hba : b = a
      · subst hba
        simpa [Memory.erase, hca] using ih
      · have hcb : c.1 ≠ b := fun h => hba (h ▸ hca)
        simp [Memory.erase, Memory.read, hca, ih, hba, Ne.symm hba]
    · by_cases hcb : c.1 = b
      · have hba : b ≠ a := fun h => hca (hcb.trans h)
        simp [Memory.erase, Memory.read, hcb, hba]
      · simp [Memory.erase, Memory.read, hca, hcb, ih]

theorem Memory.read_insert_same (m : Memory) (a : Nat) (v : Byte) (h : ∀ c ∈ m, c.1 ≠ a) :
    (Memory.insert m a v).read a = v := by
  induction m with
  | nil => simp [Memory.insert, Memory.read]
  | cons c rest ih =>
    have hc := h c (by simp)
    have hr := ih fun d hd => h d (by simp [hd])
    by_cases hlt : a < c.1
    · simp [Memory.insert, Memory.read, hlt]
    · simp [Memory.insert, Memory.read, hlt, hc, hr]

theorem Memory.read_insert_other (m : Memory) (a b : Nat) (v : Byte) (hba : b ≠ a) :
    (Memory.insert m a v).read b = m.read b := by
  induction m with
  | nil => simp [Memory.insert, Memory.read, Ne.symm hba]
  | cons c rest ih =>
    by_cases hlt : a < c.1
    · simp [Memory.insert, Memory.read, hlt, Ne.symm hba]
    · simp [Memory.insert, Memory.read, hlt, ih]

theorem Memory.mem_erase {m : Memory} {a : Nat} {c : Host.Cell} (h : c ∈ Memory.erase m a) : c ∈ m ∧ c.1 ≠ a := by
  induction m with
  | nil => simp [Memory.erase] at h
  | cons d rest ih =>
    by_cases hda : d.1 = a
    · obtain ⟨hm, hne⟩ := ih (by simpa [Memory.erase, hda] using h)
      exact ⟨by simp [hm], hne⟩
    · have h' : c = d ∨ c ∈ Memory.erase rest a := by simpa [Memory.erase, hda] using h
      obtain rfl | hr := h'
      · exact ⟨by simp, hda⟩
      · exact ⟨by simp [(ih hr).1], (ih hr).2⟩

theorem Memory.mem_insert {m : Memory} {a : Nat} {v : Byte} {c : Host.Cell} (h : c ∈ Memory.insert m a v) :
    c = (a, v) ∨ c ∈ m := by
  induction m with
  | nil => left; simpa [Memory.insert] using h
  | cons d rest ih =>
    by_cases hlt : a < d.1
    · simpa [Memory.insert, hlt] using h
    · have h' : c = d ∨ c ∈ Memory.insert rest a v := by simpa [Memory.insert, hlt] using h
      obtain rfl | hr := h'
      · right; simp
      · obtain h1 | h1 := ih hr
        · exact .inl h1
        · right; simp [h1]

/-- A read after a write: the byte written at its address, every other byte as before. -/
theorem Memory.read_write (m : Memory) (a b : Nat) (v : Byte) :
    (Memory.write m a v).read b = if b = a then v else m.read b := by
  unfold Memory.write
  by_cases hv : v = Memory.unlisted
  · simp [hv, Memory.read_erase]
  · by_cases hba : b = a
    · subst hba
      simp [hv, Memory.read_insert_same _ _ _ fun c hc => (Memory.mem_erase hc).2]
    · simp [hv, hba, Memory.read_insert_other _ _ _ _ hba, Memory.read_erase]

theorem Memory.rising_erase {m : Memory} (a : Nat) (h : m.Pairwise (fun c d => c.1 < d.1)) :
    (Memory.erase m a).Pairwise (fun c d => c.1 < d.1) := by
  induction m with
  | nil => simp [Memory.erase]
  | cons c rest ih =>
    rw [List.pairwise_cons] at h
    by_cases hca : c.1 = a
    · simpa [Memory.erase, hca] using ih h.2
    · simp only [Memory.erase, hca, if_false, List.pairwise_cons]
      exact ⟨fun d hd => h.1 d (Memory.mem_erase hd).1, ih h.2⟩

theorem Memory.rising_insert {m : Memory} (a : Nat) (v : Byte) (h : m.Pairwise (fun c d => c.1 < d.1))
    (hne : ∀ c ∈ m, c.1 ≠ a) : (Memory.insert m a v).Pairwise (fun c d => c.1 < d.1) := by
  induction m with
  | nil => simp [Memory.insert]
  | cons c rest ih =>
    have hc := List.pairwise_cons.mp h
    by_cases hlt : a < c.1
    · simp only [Memory.insert, hlt, if_true, List.pairwise_cons]
      refine ⟨fun d hd => ?_, hc.1, hc.2⟩
      obtain rfl | hd := List.mem_cons.mp hd
      · exact hlt
      · exact hlt.trans (hc.1 d hd)
    · simp only [Memory.insert, hlt, if_false, List.pairwise_cons]
      refine ⟨fun d hd => ?_, ih hc.2 fun d hd => hne d (by simp [hd])⟩
      obtain rfl | hd := Memory.mem_insert hd
      · have := hne c (by simp)
        show c.1 < a
        omega
      · exact hc.1 d hd

/-- A write keeps the canonical form. -/
theorem Memory.wf_write {m : Memory} (a : Nat) (v : Byte) (h : Memory.wf m) : Memory.wf (Memory.write m a v) := by
  have her := Memory.rising_erase a h.1
  unfold Memory.write
  by_cases hv : v = Memory.unlisted
  · simp only [hv, if_true]
    exact ⟨her, fun c hc => h.2 c (Memory.mem_erase hc).1⟩
  · simp only [hv, if_false]
    refine ⟨Memory.rising_insert a v her fun c hc => (Memory.mem_erase hc).2, fun c hc => ?_⟩
    obtain rfl | hc := Memory.mem_insert hc
    · exact hv
    · exact h.2 c (Memory.mem_erase hc).1

/-- A write inside the bound keeps every listed address inside it. -/
theorem Memory.below_write {m : Memory} {n a : Nat} (v : Byte) (ha : a < n) (h : Memory.below n m) :
    Memory.below n (Memory.write m a v) := by
  intro c hc
  unfold Memory.write at hc
  by_cases hv : v = Memory.unlisted
  · simp only [hv, if_true] at hc
    exact h c (Memory.mem_erase hc).1
  · simp only [hv, if_false] at hc
    obtain rfl | hc := Memory.mem_insert hc
    · exact ha
    · exact h c (Memory.mem_erase hc).1

theorem Memory.wf_writeEach (g : Nat → Nat) (f : Nat → Byte) (n : Nat) {m : Memory} (h : Memory.wf m) :
    Memory.wf (Memory.writeEach g f n m) := by
  induction n with
  | zero => exact h
  | succ n ih => exact Memory.wf_write _ _ ih

theorem Memory.below_writeEach {g : Nat → Nat} (f : Nat → Byte) {n k : Nat} {m : Memory} (hg : ∀ i < n, g i < k)
    (h : Memory.below k m) : Memory.below k (Memory.writeEach g f n m) := by
  induction n with
  | zero => exact h
  | succ n ih => exact Memory.below_write _ (hg n (by omega)) (ih fun i hi => hg i (by omega))

/-- A byte at none of the written addresses stays. -/
theorem Memory.read_writeEach_other {g : Nat → Nat} (f : Nat → Byte) {n b : Nat} (m : Memory)
    (hb : ∀ i < n, g i ≠ b) : (Memory.writeEach g f n m).read b = m.read b := by
  induction n with
  | zero => rfl
  | succ n ih =>
    have hn := hb n (by omega)
    simp [Memory.writeEach, Memory.read_write, Ne.symm hn, ih fun i hi => hb i (by omega)]

/-- A byte written at an address of its own holds what was written. -/
theorem Memory.read_writeEach_same {g : Nat → Nat} (f : Nat → Byte) {n i : Nat} (m : Memory) (hi : i < n)
    (hg : ∀ j < n, g j = g i → j = i) : (Memory.writeEach g f n m).read (g i) = f i := by
  induction n with
  | zero => omega
  | succ n ih =>
    by_cases hin : i = n
    · subst hin
      simp [Memory.writeEach, Memory.read_write]
    · have hne : g i ≠ g n := fun h => hin (hg n (by omega) h.symm).symm
      simp [Memory.writeEach, Memory.read_write, hne, ih (by omega) fun j hj => hg j (by omega)]

end Sys2Proof.Machine
end

