-- ==== Sys2Proof/Laws/Operands.lean ====
section
/-!
SUPPORT. The address mapping and the logical integer.
-/

namespace Sys2Proof.Machine

theorem State.phys_lt (s : State) {k : Nat} (h : k < s.par.nb) : s.phys k < s.par.nb := by
  unfold State.phys
  cases s.par.endian
  · simpa using h
  · simp only
    omega

/-- `phys` is its own inverse on the logical bytes (R81). -/
theorem State.phys_phys (s : State) {k : Nat} (h : k < s.par.nb) : s.phys (s.phys k) = k := by
  unfold State.phys
  cases s.par.endian
  · rfl
  · simp only
    omega

theorem State.phys_inj (s : State) {j k : Nat} (hj : j < s.par.nb) (hk : k < s.par.nb) (h : s.phys j = s.phys k) :
    j = k := by
  rw [← s.phys_phys hj, ← s.phys_phys hk, h]

theorem State.div_lt_nb (s : State) {i : Nat} (h : i < s.W) : i / 8 < s.par.nb := by
  unfold State.W at h
  omega

theorem State.addr_byte_lt (s : State) {i : Nat} (h : i < s.W) : (s.addr i).1 < s.par.nb :=
  s.phys_lt (s.div_lt_nb h)

theorem State.addr_offset_lt (s : State) (i : Nat) : (s.addr i).2 < 8 := Nat.mod_lt i (by decide)

/-- Two indices in range with the same address are the same (R82). -/
theorem State.addr_inj (s : State) {i j : Nat} (hi : i < s.W) (hj : j < s.W) (h : s.addr i = s.addr j) : i = j := by
  have h1 : i / 8 = j / 8 := s.phys_inj (s.div_lt_nb hi) (s.div_lt_nb hj) (congrArg Prod.fst h)
  have h2 : i % 8 = j % 8 := congrArg Prod.snd h
  omega

theorem State.valueOfBytes_lt (s : State) (n : Nat) : s.valueOfBytes n < 2 ^ (8 * n) := by
  induction n with
  | zero => simp [State.valueOfBytes]
  | succ n ih =>
    have hb : (s.logicalByte n).toNat < 2 ^ 8 := (s.logicalByte n).isLt
    have hp : 2 ^ (8 * (n + 1)) = 2 ^ (8 * n) * 2 ^ 8 := by rw [← Nat.pow_add]; rfl
    simp only [State.valueOfBytes, hp]
    nlinarith

/-- A bit of the logical integer of `n` bytes is a bit of a logical byte. -/
theorem State.valueOfBytes_testBit (s : State) (n i : Nat) :
    (s.valueOfBytes n).testBit i = (decide (i < 8 * n) && (s.logicalByte (i / 8)).getLsbD (i % 8)) := by
  induction n with
  | zero => simp [State.valueOfBytes]
  | succ n ih =>
    simp only [State.valueOfBytes]
    rw [Nat.add_comm, Nat.mul_comm, Nat.testBit_two_pow_mul_add _ (s.valueOfBytes_lt n)]
    by_cases h : i < 8 * n
    · simp [h, ih, show i < 8 * (n + 1) by omega]
    · by_cases h' : i < 8 * (n + 1)
      · have hd : i / 8 = n := by omega
        have hm : i - 8 * n = i % 8 := by omega
        simp [h, h', hd, hm, BitVec.getLsbD]
      · have h8 : 8 ≤ i - 8 * n := by omega
        have hlt : (s.logicalByte n).toNat < 2 ^ (i - 8 * n) :=
          lt_of_lt_of_le (s.logicalByte n).isLt (Nat.pow_le_pow_right (by decide) h8)
        simp [h, h', Nat.testBit_lt_two_pow hlt]

/-- Bit `i` of the logical integer is the addressed bit of the storage (R82). -/
theorem State.value_testBit (s : State) (i : Nat) : s.value.testBit i = (decide (i < s.W) && s.getBit i) := by
  have h8 : 8 * s.par.nb = s.W := Nat.mul_comm _ _
  simp [State.value, State.valueOfBytes_testBit, h8, State.getBit, State.addr, State.logicalByte]

/-- The logical integer is the one with the given bits. -/
theorem State.value_eq_of_bits (s : State) {v : Nat} (h : ∀ i, v.testBit i = (decide (i < s.W) && s.getBit i)) :
    s.value = v :=
  Nat.eq_of_testBit_eq fun i => by rw [s.value_testBit, h]

/-- The bits of a byte with one bit replaced (41_accessors.md, putbit). -/
theorem withBit_getLsbD (x : Byte) {j : Nat} (hj : j < 8) (v : Bool) (k : Nat) :
    (withBit x j v).getLsbD k = if k = j then v else x.getLsbD k := by
  by_cases hk : k < 8
  · interval_cases j <;> interval_cases k <;> cases v <;> simp [withBit]
  · have hne : k ≠ j := by omega
    simp [hne, BitVec.getLsbD_of_ge _ k (by omega : 8 ≤ k)]

/-- The bits of a byte with one bit flipped (R93). -/
theorem flipBit_getLsbD (x : Byte) {j : Nat} (hj : j < 8) (k : Nat) :
    (x ^^^ (1#8 <<< j)).getLsbD k = if k = j then !x.getLsbD k else x.getLsbD k := by
  by_cases hk : k < 8
  · interval_cases j <;> interval_cases k <;> simp
  · have hne : k ≠ j := by omega
    simp [hne, BitVec.getLsbD_of_ge _ k (by omega : 8 ≤ k)]

end Sys2Proof.Machine
end

