-- ==== Sys2Proof/Laws/State.lean ====
section
/-!
SUPPORT. What each field of State holds after each update, one lemma per field and update, so that no later proof unfolds
one.
-/

namespace Sys2Proof.Machine

@[simp] theorem State.writeByte_par (s : State) (b : Nat) (v : Byte) : (s.writeByte b v).par = s.par := rfl
@[simp] theorem State.writeByte_storage (s : State) (b : Nat) (v : Byte) :
    (s.writeByte b v).storage = Memory.write s.storage b v := rfl
@[simp] theorem State.writeByte_status (s : State) (b : Nat) (v : Byte) : (s.writeByte b v).status = s.status := rfl
@[simp] theorem State.writeByte_faultInfo (s : State) (b : Nat) (v : Byte) :
    (s.writeByte b v).faultInfo = s.faultInfo := rfl
@[simp] theorem State.writeByte_pending (s : State) (b : Nat) (v : Byte) :
    (s.writeByte b v).pending = s.pending := rfl
@[simp] theorem State.writeByte_answer (s : State) (b : Nat) (v : Byte) : (s.writeByte b v).answer = s.answer := rfl
@[simp] theorem State.writeByte_draws (s : State) (b : Nat) (v : Byte) : (s.writeByte b v).draws = s.draws := rfl

@[simp] theorem State.putBit_par (s : State) (i : Nat) (v : Bool) : (s.putBit i v).par = s.par := rfl
@[simp] theorem State.putBit_storage (s : State) (i : Nat) (v : Bool) :
    (s.putBit i v).storage = Memory.write s.storage (s.addr i).1 (withBit (s.byteAt (s.addr i).1) (s.addr i).2 v) := rfl
@[simp] theorem State.putBit_status (s : State) (i : Nat) (v : Bool) : (s.putBit i v).status = s.status := rfl
@[simp] theorem State.putBit_faultInfo (s : State) (i : Nat) (v : Bool) :
    (s.putBit i v).faultInfo = s.faultInfo := rfl
@[simp] theorem State.putBit_pending (s : State) (i : Nat) (v : Bool) : (s.putBit i v).pending = s.pending := rfl
@[simp] theorem State.putBit_answer (s : State) (i : Nat) (v : Bool) : (s.putBit i v).answer = s.answer := rfl
@[simp] theorem State.putBit_draws (s : State) (i : Nat) (v : Bool) : (s.putBit i v).draws = s.draws := rfl

@[simp] theorem State.fillAll_par (s : State) (v : Byte) : (s.fillAll v).par = s.par := rfl
@[simp] theorem State.fillAll_storage (s : State) (v : Byte) :
    (s.fillAll v).storage = Memory.writeEach id (fun _ => v) s.par.nb s.storage := rfl
@[simp] theorem State.fillAll_status (s : State) (v : Byte) : (s.fillAll v).status = s.status := rfl
@[simp] theorem State.fillAll_faultInfo (s : State) (v : Byte) : (s.fillAll v).faultInfo = s.faultInfo := rfl
@[simp] theorem State.fillAll_pending (s : State) (v : Byte) : (s.fillAll v).pending = s.pending := rfl
@[simp] theorem State.fillAll_answer (s : State) (v : Byte) : (s.fillAll v).answer = s.answer := rfl
@[simp] theorem State.fillAll_draws (s : State) (v : Byte) : (s.fillAll v).draws = s.draws := rfl

@[simp] theorem State.storeLogical_par (s : State) (f : Nat → Byte) : (s.storeLogical f).par = s.par := rfl
@[simp] theorem State.storeLogical_storage (s : State) (f : Nat → Byte) :
    (s.storeLogical f).storage = Memory.writeEach s.phys f s.par.nb s.storage := rfl
@[simp] theorem State.storeLogical_status (s : State) (f : Nat → Byte) : (s.storeLogical f).status = s.status := rfl
@[simp] theorem State.storeLogical_faultInfo (s : State) (f : Nat → Byte) :
    (s.storeLogical f).faultInfo = s.faultInfo := rfl
@[simp] theorem State.storeLogical_pending (s : State) (f : Nat → Byte) :
    (s.storeLogical f).pending = s.pending := rfl
@[simp] theorem State.storeLogical_answer (s : State) (f : Nat → Byte) : (s.storeLogical f).answer = s.answer := rfl
@[simp] theorem State.storeLogical_draws (s : State) (f : Nat → Byte) : (s.storeLogical f).draws = s.draws := rfl

@[simp] theorem State.respond_par (s : State) (r0 r1 : Nat) : (s.respond r0 r1).par = s.par := rfl
@[simp] theorem State.respond_storage (s : State) (r0 r1 : Nat) : (s.respond r0 r1).storage = s.storage := rfl
@[simp] theorem State.respond_status (s : State) (r0 r1 : Nat) : (s.respond r0 r1).status = s.status := rfl
@[simp] theorem State.respond_faultInfo (s : State) (r0 r1 : Nat) : (s.respond r0 r1).faultInfo = s.faultInfo := rfl
@[simp] theorem State.respond_pending (s : State) (r0 r1 : Nat) : (s.respond r0 r1).pending = s.pending := rfl
@[simp] theorem State.respond_answer (s : State) (r0 r1 : Nat) :
    (s.respond r0 r1).answer = some (.response ⟨.ok, r0, r1⟩) := rfl
@[simp] theorem State.respond_draws (s : State) (r0 r1 : Nat) : (s.respond r0 r1).draws = s.draws := rfl

@[simp] theorem State.noAnswer_par (s : State) : s.noAnswer.par = s.par := rfl
@[simp] theorem State.noAnswer_storage (s : State) : s.noAnswer.storage = s.storage := rfl
@[simp] theorem State.noAnswer_status (s : State) : s.noAnswer.status = s.status := rfl
@[simp] theorem State.noAnswer_faultInfo (s : State) : s.noAnswer.faultInfo = s.faultInfo := rfl
@[simp] theorem State.noAnswer_pending (s : State) : s.noAnswer.pending = s.pending := rfl
@[simp] theorem State.noAnswer_answer (s : State) : s.noAnswer.answer = none := rfl
@[simp] theorem State.noAnswer_draws (s : State) : s.noAnswer.draws = s.draws := rfl

@[simp] theorem State.reportFault_par (s : State) (c : Cause) : (s.reportFault c).par = s.par := rfl
@[simp] theorem State.reportFault_storage (s : State) (c : Cause) : (s.reportFault c).storage = s.storage := rfl
@[simp] theorem State.reportFault_status (s : State) (c : Cause) :
    (s.reportFault c).status = statusWithFault s.status (faultCodeOf c) := rfl
@[simp] theorem State.reportFault_faultInfo (s : State) (c : Cause) :
    (s.reportFault c).faultInfo = faultInfoOf s.par.argWidth c := rfl
@[simp] theorem State.reportFault_pending (s : State) (c : Cause) : (s.reportFault c).pending = s.pending := rfl
@[simp] theorem State.reportFault_answer (s : State) (c : Cause) :
    (s.reportFault c).answer = some (.response ⟨.fault, faultCodeOf c, faultInfoOf s.par.argWidth c⟩) := rfl
@[simp] theorem State.reportFault_draws (s : State) (c : Cause) : (s.reportFault c).draws = s.draws := rfl

@[simp] theorem State.unspecifiedStorage_par (s : State) : s.unspecifiedStorage.par = s.par := rfl
@[simp] theorem State.unspecifiedStorage_storage (s : State) :
    s.unspecifiedStorage.storage = Memory.writeEach id (Config.unspecifiedByte s.draws) s.par.nb s.storage := rfl
@[simp] theorem State.unspecifiedStorage_status (s : State) : s.unspecifiedStorage.status = s.status := rfl
@[simp] theorem State.unspecifiedStorage_faultInfo (s : State) : s.unspecifiedStorage.faultInfo = s.faultInfo := rfl
@[simp] theorem State.unspecifiedStorage_pending (s : State) : s.unspecifiedStorage.pending = s.pending := rfl
@[simp] theorem State.unspecifiedStorage_answer (s : State) : s.unspecifiedStorage.answer = s.answer := rfl
@[simp] theorem State.unspecifiedStorage_draws (s : State) : s.unspecifiedStorage.draws = s.draws + 1 := rfl

@[simp] theorem State.applyReset_par (s : State) : s.applyReset.par = s.par := rfl
@[simp] theorem State.applyReset_storage (s : State) : s.applyReset.storage = initialStorage s.par := rfl
@[simp] theorem State.applyReset_status (s : State) : s.applyReset.status = 0 := rfl
@[simp] theorem State.applyReset_faultInfo (s : State) : s.applyReset.faultInfo = 0 := rfl
@[simp] theorem State.applyReset_pending (s : State) : s.applyReset.pending = s.pending := rfl
@[simp] theorem State.applyReset_answer (s : State) : s.applyReset.answer = none := rfl
@[simp] theorem State.applyReset_draws (s : State) : s.applyReset.draws = s.draws := rfl

@[simp] theorem State.withNextAction_par (s : State) (a : HostAction) : (s.withNextAction a).par = s.par := rfl
@[simp] theorem State.withNextAction_storage (s : State) (a : HostAction) :
    (s.withNextAction a).storage = s.storage := rfl
@[simp] theorem State.withNextAction_status (s : State) (a : HostAction) :
    (s.withNextAction a).status = s.status := rfl
@[simp] theorem State.withNextAction_faultInfo (s : State) (a : HostAction) :
    (s.withNextAction a).faultInfo = s.faultInfo := rfl
@[simp] theorem State.withNextAction_pending (s : State) (a : HostAction) :
    (s.withNextAction a).pending = a :: s.pending := rfl
@[simp] theorem State.withNextAction_answer (s : State) (a : HostAction) :
    (s.withNextAction a).answer = s.answer := rfl
@[simp] theorem State.withNextAction_draws (s : State) (a : HostAction) : (s.withNextAction a).draws = s.draws := rfl

/-- Fault entry reports the fault whatever the cause. -/
@[simp] theorem State.enterFault_par (s : State) (c : Cause) : (s.enterFault c).par = s.par := by
  cases c <;> rfl
@[simp] theorem State.enterFault_status (s : State) (c : Cause) :
    (s.enterFault c).status = statusWithFault s.status (faultCodeOf c) := by
  cases c <;> rfl
@[simp] theorem State.enterFault_faultInfo (s : State) (c : Cause) :
    (s.enterFault c).faultInfo = faultInfoOf s.par.argWidth c := by
  cases c <;> rfl
@[simp] theorem State.enterFault_pending (s : State) (c : Cause) : (s.enterFault c).pending = s.pending := by
  cases c <;> rfl
@[simp] theorem State.enterFault_answer (s : State) (c : Cause) :
    (s.enterFault c).answer = some (.response ⟨.fault, faultCodeOf c, faultInfoOf s.par.argWidth c⟩) := by
  cases c <;> rfl
theorem State.enterFault_storage_of_precise (s : State) (c : Cause) (h : ∀ i, c ≠ .unspecified i) :
    (s.enterFault c).storage = s.storage := by
  cases c with
  | unspecified i => exact absurd rfl (h i)
  | illegalCommand w => rfl
  | invalidReference => rfl
  | indexOutOfRange i => rfl
theorem State.enterFault_draws_of_precise (s : State) (c : Cause) (h : ∀ i, c ≠ .unspecified i) :
    (s.enterFault c).draws = s.draws := by
  cases c with
  | unspecified i => exact absurd rfl (h i)
  | illegalCommand w => rfl
  | invalidReference => rfl
  | indexOutOfRange i => rfl

@[simp] theorem State.writeByte_W (s : State) (b : Nat) (v : Byte) : (s.writeByte b v).W = s.W := rfl
@[simp] theorem State.writeByte_phys (s : State) (b : Nat) (v : Byte) : (s.writeByte b v).phys = s.phys := rfl
@[simp] theorem State.writeByte_addr (s : State) (b : Nat) (v : Byte) : (s.writeByte b v).addr = s.addr := rfl
@[simp] theorem State.putBit_W (s : State) (i : Nat) (v : Bool) : (s.putBit i v).W = s.W := rfl
@[simp] theorem State.putBit_phys (s : State) (i : Nat) (v : Bool) : (s.putBit i v).phys = s.phys := rfl
@[simp] theorem State.putBit_addr (s : State) (i : Nat) (v : Bool) : (s.putBit i v).addr = s.addr := rfl
@[simp] theorem State.fillAll_W (s : State) (v : Byte) : (s.fillAll v).W = s.W := rfl
@[simp] theorem State.fillAll_phys (s : State) (v : Byte) : (s.fillAll v).phys = s.phys := rfl
@[simp] theorem State.fillAll_addr (s : State) (v : Byte) : (s.fillAll v).addr = s.addr := rfl
@[simp] theorem State.storeLogical_W (s : State) (f : Nat → Byte) : (s.storeLogical f).W = s.W := rfl
@[simp] theorem State.storeLogical_phys (s : State) (f : Nat → Byte) : (s.storeLogical f).phys = s.phys := rfl
@[simp] theorem State.storeLogical_addr (s : State) (f : Nat → Byte) : (s.storeLogical f).addr = s.addr := rfl
@[simp] theorem State.respond_W (s : State) (r0 r1 : Nat) : (s.respond r0 r1).W = s.W := rfl
@[simp] theorem State.respond_phys (s : State) (r0 r1 : Nat) : (s.respond r0 r1).phys = s.phys := rfl
@[simp] theorem State.respond_addr (s : State) (r0 r1 : Nat) : (s.respond r0 r1).addr = s.addr := rfl
@[simp] theorem State.noAnswer_W (s : State) : s.noAnswer.W = s.W := rfl
@[simp] theorem State.noAnswer_phys (s : State) : s.noAnswer.phys = s.phys := rfl
@[simp] theorem State.noAnswer_addr (s : State) : s.noAnswer.addr = s.addr := rfl
@[simp] theorem State.reportFault_W (s : State) (c : Cause) : (s.reportFault c).W = s.W := rfl
@[simp] theorem State.reportFault_phys (s : State) (c : Cause) : (s.reportFault c).phys = s.phys := rfl
@[simp] theorem State.reportFault_addr (s : State) (c : Cause) : (s.reportFault c).addr = s.addr := rfl
@[simp] theorem State.unspecifiedStorage_W (s : State) : s.unspecifiedStorage.W = s.W := rfl
@[simp] theorem State.unspecifiedStorage_phys (s : State) : s.unspecifiedStorage.phys = s.phys := rfl
@[simp] theorem State.unspecifiedStorage_addr (s : State) : s.unspecifiedStorage.addr = s.addr := rfl
@[simp] theorem State.applyReset_W (s : State) : s.applyReset.W = s.W := rfl
@[simp] theorem State.applyReset_phys (s : State) : s.applyReset.phys = s.phys := rfl
@[simp] theorem State.applyReset_addr (s : State) : s.applyReset.addr = s.addr := rfl
@[simp] theorem State.withNextAction_W (s : State) (a : HostAction) : (s.withNextAction a).W = s.W := rfl
@[simp] theorem State.withNextAction_phys (s : State) (a : HostAction) : (s.withNextAction a).phys = s.phys := rfl
@[simp] theorem State.withNextAction_addr (s : State) (a : HostAction) : (s.withNextAction a).addr = s.addr := rfl

@[simp] theorem State.construct_par (p : Params) : (State.construct p).par = p := rfl
@[simp] theorem State.construct_storage (p : Params) : (State.construct p).storage = initialStorage p := rfl
@[simp] theorem State.construct_status (p : Params) : (State.construct p).status = 0 := rfl
@[simp] theorem State.construct_faultInfo (p : Params) : (State.construct p).faultInfo = 0 := rfl
@[simp] theorem State.construct_pending (p : Params) : (State.construct p).pending = [] := rfl
@[simp] theorem State.construct_answer (p : Params) : (State.construct p).answer = none := rfl
@[simp] theorem State.construct_draws (p : Params) : (State.construct p).draws = 0 := rfl

/-- The reset state shown is the reset state of its instance. -/
theorem State.construct_shown : State.construct Params.shown = State.reset := rfl

end Sys2Proof.Machine
end

