-- ==== Sys2Proof/Laws/Ops.lean ====
section
/-!
SUPPORT. What each shared operation does, said once.
-/

namespace Sys2Proof.Machine

@[simp] theorem State.respond_byteAt (s : State) (r0 r1 b : Nat) : (s.respond r0 r1).byteAt b = s.byteAt b := rfl
@[simp] theorem State.noAnswer_byteAt (s : State) (b : Nat) : s.noAnswer.byteAt b = s.byteAt b := rfl
@[simp] theorem State.respond_value (s : State) (r0 r1 : Nat) : (s.respond r0 r1).value = s.value := by
  have h (n : Nat) : (s.respond r0 r1).valueOfBytes n = s.valueOfBytes n := by
    induction n with
    | zero => rfl
    | succ n ih => simp [State.valueOfBytes, ih, State.logicalByte]
  exact h s.par.nb

/-- MemWrite: one byte changes. -/
theorem State.writeByte_byteAt (s : State) (b c : Nat) (v : Byte) :
    (s.writeByte b v).byteAt c = if c = b then v else s.byteAt c :=
  Memory.read_write s.storage b c v

/-- putbit: one bit of one byte changes. -/
theorem State.putBit_getLsbD (s : State) (i : Nat) (v : Bool) (b k : Nat) :
    ((s.putBit i v).byteAt b).getLsbD k =
      if b = (s.addr i).1 ∧ k = (s.addr i).2 then v else (s.byteAt b).getLsbD k := by
  unfold State.putBit
  rw [State.writeByte_byteAt]
  by_cases hb : b = (s.addr i).1
  · simp [hb, withBit_getLsbD _ (s.addr_offset_lt i)]
  · simp [hb]

/-- Every byte of the storage becomes the fill byte; no byte outside it changes. -/
theorem State.fillAll_byteAt (s : State) (v : Byte) (b : Nat) :
    (s.fillAll v).byteAt b = if b < s.par.nb then v else s.byteAt b := by
  by_cases hb : b < s.par.nb
  · rw [if_pos hb]
    exact Memory.read_writeEach_same (g := id) (fun _ => v) s.storage hb fun j _ h => h
  · rw [if_neg hb]
    exact Memory.read_writeEach_other (g := id) (fun _ => v) s.storage fun i hi h => hb (h ▸ hi)

/-- Logical byte `k` becomes `f k`. -/
theorem State.storeLogical_logicalByte (s : State) (f : Nat → Byte) {k : Nat} (hk : k < s.par.nb) :
    (s.storeLogical f).logicalByte k = f k :=
  Memory.read_writeEach_same f s.storage hk fun _ hj h => s.phys_inj hj hk h

/-- No byte outside the storage changes. -/
theorem State.storeLogical_byteAt_of_ge (s : State) (f : Nat → Byte) {b : Nat} (hb : s.par.nb ≤ b) :
    (s.storeLogical f).byteAt b = s.byteAt b :=
  Memory.read_writeEach_other f s.storage fun i hi h => by
    have := s.phys_lt hi
    omega

/-- The first out-of-range index operand is the fault of the index checks; without one there is none (R83, R158). -/
theorem State.checkIndices_eq (s : State) (l : List Nat) :
    s.checkIndices l = (l.find? fun i => decide (s.W ≤ i)).map s.indexCause := by
  induction l with
  | nil => rfl
  | cons i rest ih =>
    by_cases h : i < s.W
    · simp [State.checkIndices, State.checkIndex, h, Nat.not_le.mpr h, ih]
    · cases hc : s.par.checked <;>
        simp [State.checkIndices, State.checkIndex, h, Nat.not_lt.mp h, State.indexCause, hc]

/-- Everything a command can do: halted, nothing and no answer; otherwise the first fault of its checks, or its effect. -/
theorem runCommand_cases (s : State) (l : List Nat) (effect : State → State) :
    (s.faulted = true ∧ runCommand s l effect = .next s.noAnswer) ∨
    (s.faulted = false ∧ s.par.attached = false ∧ runCommand s l effect = .next (s.enterFault .invalidReference)) ∨
    (s.faulted = false ∧ s.par.attached = true ∧
      ∃ i ∈ l, s.W ≤ i ∧ runCommand s l effect = .next (s.enterFault (s.indexCause i))) ∨
    (s.faulted = false ∧ s.par.attached = true ∧ (∀ i ∈ l, i < s.W) ∧ runCommand s l effect = .next (effect s)) := by
  cases hf : s.faulted with
  | true => left; simp [runCommand, hf]
  | false =>
    right
    cases ha : s.par.attached with
    | false => left; simp [runCommand, hf, State.checks, State.checkRef, ha]
    | true =>
      right
      cases hl : l.find? fun i => decide (s.W ≤ i) with
      | some i =>
        left
        refine ⟨rfl, rfl, i, List.mem_of_find?_eq_some hl, by simpa using List.find?_some hl, ?_⟩
        simp [runCommand, hf, State.checks, State.checkRef, ha, State.checkIndices_eq, hl]
      | none =>
        right
        refine ⟨rfl, rfl, fun i hi => ?_, ?_⟩
        · simpa using List.find?_eq_none.mp hl i hi
        · simp [runCommand, hf, State.checks, State.checkRef, ha, State.checkIndices_eq, hl]

/-- A ready block whose indices are in range runs the command's effect. -/
theorem runCommand_effect {s : State} {l : List Nat} (effect : State → State) (hf : s.faulted = false)
    (ha : s.par.attached = true) (hl : ∀ i ∈ l, i < s.W) : runCommand s l effect = .next (effect s) := by
  have hn : (l.find? fun i => decide (s.W ≤ i)) = none :=
    List.find?_eq_none.mpr fun i hi => by simpa using hl i hi
  simp [runCommand, hf, State.checks, State.checkRef, ha, State.checkIndices_eq, hn]

/-- A halted block takes no command. -/
theorem runCommand_halted {s : State} (l : List Nat) (effect : State → State) (hf : s.faulted = true) :
    runCommand s l effect = .next s.noAnswer := by
  simp [runCommand, hf]

/-- With no storage a command is an invalid reference. -/
theorem runCommand_detached {s : State} (l : List Nat) (effect : State → State) (hf : s.faulted = false)
    (ha : s.par.attached = false) : runCommand s l effect = .next (s.enterFault .invalidReference) := by
  simp [runCommand, hf, State.checks, State.checkRef, ha]

/-- The first index operand out of range is the command's fault. -/
theorem runCommand_index {s : State} {pre post : List Nat} {i : Nat} (effect : State → State) (hf : s.faulted = false)
    (ha : s.par.attached = true) (hpre : ∀ j ∈ pre, j < s.W) (hi : s.W ≤ i) :
    runCommand s (pre ++ i :: post) effect = .next (s.enterFault (s.indexCause i)) := by
  have hn : (pre.find? fun i => decide (s.W ≤ i)) = none :=
    List.find?_eq_none.mpr fun j hj => by simpa using hpre j hj
  simp [runCommand, hf, State.checks, State.checkRef, ha, State.checkIndices_eq, List.find?_append, hn, hi]

end Sys2Proof.Machine
end

