-- ==== Sys2Proof/Laws/Shift.lean ====
section
/-!
SUPPORT. The bits of the engine's windows and phases, and what the engine does.
-/

namespace Sys2Proof.Machine

/-- The byte taken from a left-shifted window: the low bits of the upper byte above the top bits of the lower one. -/
theorem window_left_getLsbD (u l : Byte) {t j : Nat} (ht : t < 8) (hj : j < 8) :
    (((window u l <<< t) >>> 8).setWidth 8).getLsbD j = if t ≤ j then u.getLsbD (j - t) else l.getLsbD (8 + j - t) := by
  simp only [window, BitVec.getLsbD_setWidth, BitVec.getLsbD_ushiftRight, BitVec.getLsbD_shiftLeft, BitVec.getLsbD_or]
  by_cases h : t ≤ j
  · have h1 : 8 + j < 16 := by omega
    have h2 : ¬ 8 + j < t := by omega
    have h3 : 8 + j - t < 16 := by omega
    have h4 : ¬ 8 + j - t < 8 := by omega
    have h5 : 8 + j - t - 8 = j - t := by omega
    have h6 : j - t < 16 := by omega
    simp [h, hj, h1, h2, h3, h4, h5, h6, BitVec.getLsbD_of_ge l (8 + j - t) (by omega)]
  · have h1 : 8 + j < 16 := by omega
    have h2 : ¬ 8 + j < t := by omega
    have h3 : 8 + j - t < 16 := by omega
    have h4 : 8 + j - t < 8 := by omega
    simp [h, hj, h1, h2, h3, h4]

/-- The byte taken from a right-shifted window: the high bits of the lower byte below the low bits of the upper one. -/
theorem window_right_getLsbD (u l : Byte) {t j : Nat} (ht : t < 8) (hj : j < 8) :
    ((window u l >>> t).setWidth 8).getLsbD j = if j + t < 8 then l.getLsbD (j + t) else u.getLsbD (j + t - 8) := by
  simp only [window, BitVec.getLsbD_setWidth, BitVec.getLsbD_ushiftRight, BitVec.getLsbD_shiftLeft, BitVec.getLsbD_or]
  have h1 : t + j < 16 := by omega
  by_cases h : j + t < 8
  · have h2 : t + j < 8 := by omega
    simp [hj, h1, h2, Nat.add_comm j t]
  · have h2 : ¬ t + j < 8 := by omega
    have h3 : t + j - 8 < 16 := by omega
    simp [hj, h1, h2, h3, Nat.add_comm j t, BitVec.getLsbD_of_ge l (t + j) (by omega)]

/-- The bits of the fill byte are the fill bit. -/
theorem fillByte_getLsbD (fill : Fill) {j : Nat} (hj : j < 8) : (fillByte fill).getLsbD j = fillBit fill := by
  cases fill <;> interval_cases j <;> decide

/-- The engine's outcomes (R111): nothing, every byte filled, or both phases by the normalized count. -/
theorem engine_cases (dir : Direction) (fill : Fill) (p : Nat) (s : State) :
    (normalizePositions s.W p fill = .noop ∧ engine dir fill p s = s.respond 0 0) ∨
    (normalizePositions s.W p fill = .saturate ∧ engine dir fill p s = (s.fillAll (fillByte fill)).respond 0 0) ∨
    ∃ n, normalizePositions s.W p fill = .count n ∧
      engine dir fill p s = (s.storeLogical (shiftedByte dir fill s.par.nb n s.logicalByte)).respond 0 0 := by
  cases h : normalizePositions s.W p fill with
  | noop => left; simp [engine, h]
  | saturate => right; left; simp [engine, h]
  | count n => right; right; exact ⟨n, rfl, by simp [engine, h]⟩

/-- A normalized count lies strictly between 0 and `W` (R111). -/
theorem normalizePositions_count {w p n : Nat} {fill : Fill} (hw : 0 < w)
    (h : normalizePositions w p fill = .count n) :
    0 < n ∧ n < w := by
  unfold normalizePositions at h
  by_cases hp : p = 0
  · simp [hp] at h
  · cases fill with
    | ring =>
      by_cases hm : p % w = 0
      · simp [hp, hm] at h
      · simp only [hp, hm, if_false, Normalized.count.injEq] at h
        exact ⟨by omega, h ▸ Nat.mod_lt p hw⟩
    | zero =>
      by_cases hle : w ≤ p
      · simp [hp, hle] at h
      · simp only [hp, hle, if_false, Normalized.count.injEq] at h
        omega
    | one =>
      by_cases hle : w ≤ p
      · simp [hp, hle] at h
      · simp only [hp, hle, if_false, Normalized.count.injEq] at h
        omega

/-- A count inside the width is its own normalization. -/
theorem normalizePositions_of_lt {w p : Nat} (fill : Fill) (hp : 0 < p) (hlt : p < w) :
    normalizePositions w p fill = .count p := by
  have h0 : p ≠ 0 := by omega
  have hle : ¬ w ≤ p := by omega
  cases fill <;> simp [normalizePositions, h0, hle, Nat.mod_eq_of_lt hlt]

/-- Every shift command is the engine run as a command without index operands. -/
theorem exec_shiftCommand (dir : Direction) (fill : Fill) (p : Nat) (s : State) :
    exec (shiftCommand dir fill p) s = runCommand s [] (engine dir fill p) := by
  cases dir <;> cases fill <;> rfl

/-- A ready block runs a shift command. -/
theorem exec_shiftCommand_ready {s : State} (dir : Direction) (fill : Fill) (p : Nat) (h : s.Ready) :
    exec (shiftCommand dir fill p) s = .next (engine dir fill p s) := by
  rw [exec_shiftCommand, runCommand_effect _ h.1 h.2 (by simp)]

end Sys2Proof.Machine
end

