-- ==== Sys2Proof/Laws/Exec.lean ====
section
/-!
SUPPORT. Each command as a shared operation, and the one inversion of exec: everything a command can do.
-/

namespace Sys2Proof.Machine

theorem exec_get (a : Nat) (s : State) :
    exec (.get a) s = runCommand s [a] fun s => s.respond (s.getBit a).toNat 0 := rfl

theorem exec_set (a v : Nat) (s : State) :
    exec (.set a v) s = runCommand s [a] fun s => (s.putBit a (boolOf v)).respond 0 0 := rfl

theorem exec_toggle (a : Nat) (s : State) :
    exec (.toggle a) s = runCommand s [a] fun s =>
      (s.writeByte (s.addr a).1 (s.byteAt (s.addr a).1 ^^^ (1#8 <<< (s.addr a).2))).respond 0 0 := rfl

theorem exec_swap (a b : Nat) (s : State) :
    exec (.swap a b) s = runCommand s [a, b] fun s =>
      ((s.putBit a (s.getBit b)).putBit b (s.getBit a)).respond 0 0 := rfl

theorem exec_setAll (v : Nat) (s : State) :
    exec (.setAll v) s = runCommand s [] fun s => (s.fillAll (if boolOf v then 0xFF else 0x00)).respond 0 0 := rfl

theorem exec_map (a : Nat) (s : State) :
    exec (.map a) s = runCommand s [a] fun s => s.respond (s.addr a).1 (s.addr a).2 := rfl

/-- The state a command leaves when its effect happens (R90): all but the storage and the response is as before. -/
structure Completed (s t : State) : Prop where
  /-- the parameters, and with them CFG and SIZE -/
  par : t.par = s.par
  /-- the host's other actions -/
  pending : t.pending = s.pending
  /-- STATUS -/
  status : t.status = s.status
  /-- FAULT_INFO -/
  faultInfo : t.faultInfo = s.faultInfo
  /-- nothing unspecified is drawn -/
  draws : t.draws = s.draws
  /-- the response is `OK` -/
  answer : ∃ r0 r1, t.answer = some (.response { rstatus := .ok, r0 := r0, r1 := r1 })

theorem engine_completed (dir : Direction) (fill : Fill) (p : Nat) (s : State) : Completed s (engine dir fill p s) := by
  obtain ⟨-, h⟩ | ⟨-, h⟩ | ⟨n, -, h⟩ := engine_cases dir fill p s <;> rw [h] <;>
    exact ⟨rfl, rfl, rfl, rfl, rfl, 0, 0, rfl⟩

/-- Every command is run with its index operands, and its effect completes. -/
theorem exec_eq_runCommand (i : Instr) :
    ∃ effect : State → State, (∀ s, exec i s = runCommand s (indexOperands i) effect) ∧
      ∀ s, Completed s (effect s) := by
  cases i with
  | get a => exact ⟨_, exec_get a, fun s => ⟨rfl, rfl, rfl, rfl, rfl, _, _, rfl⟩⟩
  | set a v => exact ⟨_, exec_set a v, fun s => ⟨rfl, rfl, rfl, rfl, rfl, _, _, rfl⟩⟩
  | toggle a => exact ⟨_, exec_toggle a, fun s => ⟨rfl, rfl, rfl, rfl, rfl, _, _, rfl⟩⟩
  | swap a b => exact ⟨_, exec_swap a b, fun s => ⟨rfl, rfl, rfl, rfl, rfl, _, _, rfl⟩⟩
  | setAll v => exact ⟨_, exec_setAll v, fun s => ⟨rfl, rfl, rfl, rfl, rfl, _, _, rfl⟩⟩
  | map a => exact ⟨_, exec_map a, fun s => ⟨rfl, rfl, rfl, rfl, rfl, _, _, rfl⟩⟩
  | shlZ p => exact ⟨_, exec_shiftCommand .left .zero p, engine_completed _ _ _⟩
  | shlO p => exact ⟨_, exec_shiftCommand .left .one p, engine_completed _ _ _⟩
  | shlR p => exact ⟨_, exec_shiftCommand .left .ring p, engine_completed _ _ _⟩
  | shrZ p => exact ⟨_, exec_shiftCommand .right .zero p, engine_completed _ _ _⟩
  | shrO p => exact ⟨_, exec_shiftCommand .right .one p, engine_completed _ _ _⟩
  | shrR p => exact ⟨_, exec_shiftCommand .right .ring p, engine_completed _ _ _⟩

/-- Everything a command can do. It always answers a next state: unchanged and unanswered when the block is halted, a
fault entry, or its own effect. -/
theorem exec_cases (i : Instr) (s : State) :
    (s.faulted = true ∧ exec i s = .next s.noAnswer) ∨
    (s.faulted = false ∧ s.par.attached = false ∧ exec i s = .next (s.enterFault .invalidReference)) ∨
    (s.Ready ∧ ∃ k ∈ indexOperands i, s.W ≤ k ∧ exec i s = .next (s.enterFault (s.indexCause k))) ∨
    (s.Ready ∧ (∀ k ∈ indexOperands i, k < s.W) ∧ ∃ t, exec i s = .next t ∧ Completed s t) := by
  obtain ⟨effect, he, hc⟩ := exec_eq_runCommand i
  rw [he s]
  obtain ⟨hf, h⟩ | ⟨hf, ha, h⟩ | ⟨hf, ha, k, hk, hw, h⟩ | ⟨hf, ha, hl, h⟩ :=
    runCommand_cases s (indexOperands i) effect
  · exact .inl ⟨hf, h⟩
  · exact .inr (.inl ⟨hf, ha, h⟩)
  · exact .inr (.inr (.inl ⟨⟨hf, ha⟩, k, hk, hw, h⟩))
  · exact .inr (.inr (.inr ⟨⟨hf, ha⟩, hl, _, h, hc s⟩))

end Sys2Proof.Machine
end

