-- ==== Sys2Proof/Laws/PerInstr.lean ====
section
/-!
SUPPORT. A statement about every command as syntax, one lemma per command: what the assembler makes of a command whose
operands fit the buses is a command the buses carry, with a word whose reserved bits are zero.
-/

namespace Sys2Proof.Laws.EncodedFits

/-- The buses of the encoded command carry their operands (R61), and its word has `RSV = 0` (R63). -/
def Statement (i : Instr) : Prop :=
  ∀ w, i.wf w = true → (encode i).fits w = true ∧ rsvField (encode i).cmd = 0

theorem get (index : Nat) : Statement (.get index) := fun _ h =>
  ⟨h, rsvField_commandWord (by decide) (by decide)⟩
theorem set (index value : Nat) : Statement (.set index value) := fun _ h =>
  ⟨h, rsvField_commandWord (by decide) (by decide)⟩
theorem toggle (index : Nat) : Statement (.toggle index) := fun _ h =>
  ⟨h, rsvField_commandWord (by decide) (by decide)⟩
theorem swap (index1 index2 : Nat) : Statement (.swap index1 index2) := fun _ h =>
  ⟨h, rsvField_commandWord (by decide) (by decide)⟩
theorem setAll (value : Nat) : Statement (.setAll value) := fun _ h =>
  ⟨h, rsvField_commandWord (by decide) (by decide)⟩
theorem shlZ (positions : Nat) : Statement (.shlZ positions) := fun _ h =>
  ⟨h, rsvField_commandWord (by decide) (by decide)⟩
theorem shlO (positions : Nat) : Statement (.shlO positions) := fun _ h =>
  ⟨h, rsvField_commandWord (by decide) (by decide)⟩
theorem shlR (positions : Nat) : Statement (.shlR positions) := fun _ h =>
  ⟨h, rsvField_commandWord (by decide) (by decide)⟩
theorem shrZ (positions : Nat) : Statement (.shrZ positions) := fun _ h =>
  ⟨h, rsvField_commandWord (by decide) (by decide)⟩
theorem shrO (positions : Nat) : Statement (.shrO positions) := fun _ h =>
  ⟨h, rsvField_commandWord (by decide) (by decide)⟩
theorem shrR (positions : Nat) : Statement (.shrR positions) := fun _ h =>
  ⟨h, rsvField_commandWord (by decide) (by decide)⟩
theorem map (index : Nat) : Statement (.map index) := fun _ h =>
  ⟨h, rsvField_commandWord (by decide) (by decide)⟩

end Sys2Proof.Laws.EncodedFits
end

