-- ==== Sys2Proof/Tests/Slice0.lean ====
section
/-!
SUPPORT. Tests of one step each, with expected results from the vectors and examples of the spec, and for every statement
with hypotheses a witness that meets them.
-/

namespace Sys2Proof.Tests

open Sys2Proof.Machine

/-- The instance with the given size, byte order, mode and borrowed bytes, `ARG_WIDTH = 32`, after reset. -/
def block (endian : Endian) (checked : Bool) (bytes : List Byte) : State :=
  State.construct { nb := bytes.length, endian := endian, checked := checked, attached := true, argWidth := 32,
                    init := .borrowed bytes, scratchBytes := 1 }

def big : State := block .big true [0x01, 0x2E]
def little : State := block .little true [0x2E, 0x01]
def unchecked : State := block .big false [0x01, 0x2E]
def detached : State :=
  State.construct { nb := 2, endian := .big, checked := true, attached := false, argWidth := 32, init := .zeroed,
                    scratchBytes := 1 }

/-- `big` after `GET 16`: halted with code 3. -/
def halted : State := big.enterFault (.indexOutOfRange 16)

/-- What a test compares: the answer, the storage bytes, STATUS and FAULT_INFO. -/
abbrev Report := Option Answer × List Byte × Nat × Nat

def report (s : State) : Report := (s.answer, s.bytes s.par.nb, s.statusReg.toNat, s.faultInfo)

/-- The report after one step that takes the given action. -/
def after (s : State) (a : HostAction) : Option Report :=
  match step { s with pending := [a] } with
  | .next t => some (report t)
  | .fault _ => none
  | .refused _ => none

/-- One step that issues the command. -/
def run (s : State) (cmd : CmdWord) (a b : Nat) : Option Report := after s (.command ⟨cmd, a, b⟩)

def ok (r0 r1 : Nat) : Option Answer := some (.response ⟨.ok, r0, r1⟩)
def failed (code info : Nat) : Option Answer := some (.response ⟨.fault, code, info⟩)

/-! ### Well-formedness: an ill-formed term for each check -/

/-- R11, R61: operand A and operand B below `2^ARG_WIDTH`. -/
theorem test_operand_width :
    Instr.wf 4 (.set 15 15) = true ∧ Instr.wf 4 (.set 16 15) = false ∧ Instr.wf 4 (.set 15 16) = false ∧
    Command.fits 4 ⟨5, 15, 15⟩ = true ∧ Command.fits 4 ⟨5, 16, 0⟩ = false ∧ Command.fits 4 ⟨1, 0, 16⟩ = false := by
  decide

/-- R6, R11, R12, R13: `NB = 0`, a bus too narrow for the top index, no scratch, a borrowed buffer of another length. -/
theorem test_params :
    Params.shown.wf = true ∧ { Params.shown with nb := 0 }.wf = false ∧
    { Params.shown with argWidth := 4 }.wf = true ∧ { Params.shown with argWidth := 3 }.wf = false ∧
    { Params.shown with scratchBytes := 0 }.wf = false ∧
    { Params.shown with init := .borrowed [0, 0] }.wf = true ∧
    { Params.shown with init := .borrowed [0] }.wf = false := by
  decide

/-! ### Decoding: the words of R69 written out from R63 to R65, with the buses of R61 -/

theorem test_decode_accessors :
    decode ⟨0b00000000000000000000000000000001#32, 8, 9⟩ = .ok (.get 8) ∧
    decode ⟨0b00000000000000000000000000000010#32, 8, 9⟩ = .ok (.set 8 9) ∧
    decode ⟨0b00000000000000000000000000000011#32, 8, 9⟩ = .ok (.toggle 8) ∧
    decode ⟨0b00000000000000000000000000000100#32, 8, 9⟩ = .ok (.swap 8 9) ∧
    decode ⟨0b00000000000000000000000000000101#32, 8, 9⟩ = .ok (.setAll 9) ∧
    decode ⟨0b00000000000000000000000000001000#32, 8, 9⟩ = .ok (.map 8) := ⟨rfl, rfl, rfl, rfl, rfl, rfl⟩

theorem test_decode_shifts :
    decode ⟨0b00000000000000000000000000000110#32, 8, 9⟩ = .ok (.shlZ 8) ∧
    decode ⟨0b00000000000000000000000000010110#32, 8, 9⟩ = .ok (.shlO 8) ∧
    decode ⟨0b00000000000000000000000000100110#32, 8, 9⟩ = .ok (.shlR 8) ∧
    decode ⟨0b00000000000000000000000000000111#32, 8, 9⟩ = .ok (.shrZ 8) ∧
    decode ⟨0b00000000000000000000000000010111#32, 8, 9⟩ = .ok (.shrO 8) ∧
    decode ⟨0b00000000000000000000000000100111#32, 8, 9⟩ = .ok (.shrR 8) := ⟨rfl, rfl, rfl, rfl, rfl, rfl⟩

/-- The encoder gives the words of R69, and 0 on an unused bus (R70). -/
theorem test_encode :
    (encode (.get 8), encode (.set 8 9), encode (.toggle 8), encode (.swap 8 9), encode (.setAll 9), encode (.map 8)) =
      (⟨0x1, 8, 0⟩, ⟨0x2, 8, 9⟩, ⟨0x3, 8, 0⟩, ⟨0x4, 8, 9⟩, ⟨0x5, 0, 9⟩, ⟨0x8, 8, 0⟩) ∧
    (encode (.shlZ 8), encode (.shlO 8), encode (rol 8), encode (.shrZ 8), encode (.shrO 8), encode (ror 8)) =
      (⟨0x6, 8, 0⟩, ⟨0x16, 8, 0⟩, ⟨0x26, 8, 0⟩, ⟨0x7, 8, 0⟩, ⟨0x17, 8, 0⟩, ⟨0x27, 8, 0⟩) := by
  decide

/-- R67: each of the four cases, at the values next to a legal word. -/
theorem test_illegal_words :
    decode ⟨0x00000000, 0, 0⟩ = .error .reservedOp ∧ decode ⟨0x00000009, 0, 0⟩ = .error .reservedOp ∧
    decode ⟨0x0000000F, 0, 0⟩ = .error .reservedOp ∧ decode ⟨0x00000036, 0, 0⟩ = .error .reservedFill ∧
    decode ⟨0x00000037, 0, 0⟩ = .error .reservedFill ∧ decode ⟨0x00000011, 0, 0⟩ = .error .fillOnNonShift ∧
    decode ⟨0x00000018, 0, 0⟩ = .error .fillOnNonShift ∧ decode ⟨0x00000041, 0, 0⟩ = .error .reservedBits ∧
    decode ⟨0x80000001, 0, 0⟩ = .error .reservedBits ∧ decode ⟨0xFFFFFFFF, 0, 0⟩ = .error .reservedBits :=
  ⟨rfl, rfl, rfl, rfl, rfl, rfl, rfl, rfl, rfl, rfl⟩

theorem test_table_words :
    decodeTableWord 32 0x27 = some (.shrR 0) ∧ decodeTableWord 32 0x8 = some (.map 0) ∧ decodeTableWord 32 0x36 = none := by
  decide

/-! ### The vectors of 95_test_vectors.md section 2, one step each -/

/-- RST-1 to RST-5: registers 0 to 4 after reset. -/
theorem test_reset_registers :
    ([0, 1, 2, 3, 4].map State.reset.register, State.reset.bytes 2) = ([7, 2, 0, 0, 0], [0x00, 0x00]) ∧
    [0, 1, 2, 3, 4].map (block .little true [0x00, 0x00]).register = [6, 2, 0, 0, 0] ∧
    ([0, 1, 2, 3, 4].map (block .big false [0x12, 0x34, 0x56]).register,
      (block .big false [0x12, 0x34, 0x56]).bytes 3) = ([5, 3, 0, 0, 0], [0x12, 0x34, 0x56]) ∧
    [0, 1, 2, 3, 4].map (block .little false [0x00]).register = [4, 1, 0, 0, 0] ∧
    [0, 1, 2, 3, 4].map detached.register = [3, 0, 0, 0, 0] := by
  decide

/-- GET-1, GET-8. -/
theorem test_get :
    run big 0x1 8 0 = some (ok 1 0, [0x01, 0x2E], 0, 0) ∧
    run big 0x1 4294967295 0 = some (failed 3 0xFFFFFFFF, [0x01, 0x2E], 0x31, 0xFFFFFFFF) := by decide

/-- SET-2 (on `[0x00, 0x00]`), SET-3. -/
theorem test_set :
    run (block .big true [0x00, 0x00]) 0x2 9 5 = some (ok 0 0, [0x02, 0x00], 0, 0) ∧
    run big 0x2 8 0 = some (ok 0 0, [0x00, 0x2E], 0, 0) := by decide

/-- TOGGLE-2, TOGGLE-3. -/
theorem test_toggle :
    run big 0x3 0 0 = some (ok 0 0, [0x01, 0x2F], 0, 0) ∧
    run little 0x3 15 0 = some (ok 0 0, [0x2E, 0x81], 0, 0) := by decide

/-- SWAP-1, SWAP-4, SWAP-7. -/
theorem test_swap :
    run big 0x4 8 0 = some (ok 0 0, [0x00, 0x2F], 0, 0) ∧
    run big 0x4 1 4 = some (ok 0 0, [0x01, 0x3C], 0, 0) ∧
    run big 0x4 17 16 = some (failed 3 0x11, [0x01, 0x2E], 0x31, 0x11) := by decide

/-- SET_ALL-1, SET_ALL-2 (A is ignored). -/
theorem test_setAll :
    run big 0x5 0 7 = some (ok 0 0, [0xFF, 0xFF], 0, 0) ∧
    run (block .little true [0x01, 0x2E]) 0x5 99 0 = some (ok 0 0, [0x00, 0x00], 0, 0) := by decide

/-- MAP-13, MAP-9. -/
theorem test_map :
    run (block .big true [0x00, 0x00]) 0x8 8 0 = some (ok 0 0, [0x00, 0x00], 0, 0) ∧
    run (block .little true [0x00, 0x00]) 0x8 8 0 = some (ok 1 0, [0x00, 0x00], 0, 0) := by decide

/-- SHLZ-12, SHLZ-17. -/
theorem test_shlZ :
    run little 0x6 9 0 = some (ok 0 0, [0x00, 0x5C], 0, 0) ∧
    run (block .big true [0x12, 0x34, 0x56]) 0x6 12 0 = some (ok 0 0, [0x45, 0x60, 0x00], 0, 0) := by decide

/-- SHLO-8, SHLO-19. -/
theorem test_shlO :
    run big 0x16 16 0 = some (ok 0 0, [0xFF, 0xFF], 0, 0) ∧
    run (block .big true [0x12, 0x34, 0x56]) 0x16 20 0 = some (ok 0 0, [0x6F, 0xFF, 0xFF], 0, 0) := by decide

/-- SHLR-13, SHLR-18. -/
theorem test_shlR :
    run (block .little true [0x81]) 0x26 1 0 = some (ok 0 0, [0x03], 0, 0) ∧
    run (block .little true [0x12, 0x34, 0x56]) 0x26 12 0 = some (ok 0 0, [0x63, 0x25, 0x41], 0, 0) := by decide

/-- SHRZ-3, SHRZ-18. -/
theorem test_shrZ :
    run big 0x7 4 0 = some (ok 0 0, [0x00, 0x12], 0, 0) ∧
    run (block .little true [0x12, 0x34, 0x56]) 0x7 12 0 = some (ok 0 0, [0x63, 0x05, 0x00], 0, 0) := by decide

/-- SHRO-3, SHRO-6. -/
theorem test_shrO :
    run big 0x17 4 0 = some (ok 0 0, [0xF0, 0x12], 0, 0) ∧
    run big 0x17 9 0 = some (ok 0 0, [0xFF, 0x80], 0, 0) := by decide

/-- The examples of R135. -/
theorem test_shrR :
    run (block .little true [0x81]) 0x27 1 0 = some (ok 0 0, [0xC0], 0, 0) ∧
    run (block .big true [0x12, 0x34, 0x56]) 0x27 12 0 = some (ok 0 0, [0x45, 0x61, 0x23], 0, 0) := by decide

/-- SET_ALL-4: no storage. -/
theorem test_detached : run detached 0x5 0 1 = some (failed 2 0, [0x00, 0x00], 0x21, 0) := by decide

/-- P5 step 3: an illegal word, in unchecked mode. -/
theorem test_illegal : run unchecked 0x36 5 0 = some (failed 1 0x36, [0x01, 0x2E], 0x11, 0x36) := by decide

/-- P6 step 2: an unchecked out-of-range index; the storage is not compared. -/
theorem test_unspecified :
    (run unchecked 0x1 16 0).map (fun r => (r.1, r.2.2)) = some (failed 4 16, 0x41, 16) := by decide

/-- P4 steps 4, 5 and 7: a halted block gives a command no answer, and its ports stay usable. -/
theorem test_halted :
    run halted 0x3 0 0 = some (none, [0x01, 0x2E], 0x31, 16) ∧
    after halted (.readRegister 2) = some (some (.register 0x31), [0x01, 0x2E], 0x31, 16) ∧
    after halted (.readByte 0) = some (some (.byte 0x01), [0x01, 0x2E], 0x31, 16) := by decide

/-- P3 step 6: the host writes a byte; R170: reset of a halted block. -/
theorem test_host :
    after (block .big true [0xF4, 0x56, 0xFF]) (.writeByte 0 0xA5) = some (none, [0xA5, 0x56, 0xFF], 0, 0) ∧
    after halted .reset = some (none, [0x01, 0x2E], 0, 0) := by decide

/-- The table of 95_test_vectors.md section 1.4: `NB` from `num_bits`. -/
theorem test_sizeOfNew : [1, 8, 9, 16, 17, 0].map sizeOfNew = [1, 1, 2, 2, 3, 0] := by decide

/-! ### Witnesses of the statements' hypotheses -/

/-- A next host action of the given command. -/
def issuing (s : State) (cmd : CmdWord) (a b : Nat) : State := { s with pending := [.command ⟨cmd, a, b⟩] }

/-- Two words, the two next to `GET`, that are none of the twelve; a word for each case of the rule. -/
theorem witness_OtherWordsAreIllegal :
    big.faulted = false ∧ Command.fits big.par.argWidth ⟨0x0, 0, 0⟩ = true ∧ (0x0 : CmdWord) ∉ legalWords ∧
    (0x9 : CmdWord) ∉ legalWords ∧ (0xFFFFFFFF : CmdWord) ∉ legalWords ∧
    (0x0 : CmdWord).extractLsb' 0 4 = 0 ∧ 9 ≤ ((0x9 : CmdWord).extractLsb' 0 4).toNat ∧
    (0x41 : CmdWord).extractLsb' 6 26 ≠ 0 ∧
    ((0x36 : CmdWord).extractLsb' 0 4 = 6 ∧ (0x36 : CmdWord).extractLsb' 4 2 = 3) ∧
    ((0x18 : CmdWord).extractLsb' 0 4 ≠ 6 ∧ (0x18 : CmdWord).extractLsb' 0 4 ≠ 7 ∧ (0x18 : CmdWord).extractLsb' 4 2 ≠ 0) := by
  decide

theorem witness_UnusedBusIsIgnored :
    Command.fits big.par.argWidth ⟨0x5, 99, 0⟩ = true ∧ Command.fits big.par.argWidth ⟨0x5, 0, 0⟩ = true ∧
    ∀ i, decode ⟨0x5, 99, 0⟩ = .ok i → (i.usesA = true → 99 = 0) ∧ (i.usesB = true → 0 = 0) := by
  refine ⟨by decide, by decide, fun i h => ?_⟩
  cases h
  exact ⟨(by decide), fun _ => rfl⟩

theorem witness_StepRunsTheDecodedCommand :
    (big.par.wf = true ∧ (issuing big 0x4 8 0).pending = .command ⟨0x4, 8, 0⟩ :: [] ∧
      Command.fits big.par.argWidth ⟨0x4, 8, 0⟩ = true ∧ decode ⟨0x4, 8, 0⟩ = .ok (.swap 8 0)) ∧
    State.reset.par.wf = true ∧ decodeTableWord 32 0x26 = some (.shlR 0) := by
  exact ⟨⟨by decide, rfl, by decide, rfl⟩, by decide, by decide⟩

theorem witness_ActionsTakeEffectInOrder :
    (big.par.wf = true ∧ big.pending = []) ∧
    (issuing big 0x1 8 0).pending = .command ⟨0x1, 8, 0⟩ :: [] ∧
    perform (.readRegister 2) big = .next { big with answer := some (.register (big.register 2)) } :=
  ⟨by decide, rfl, rfl⟩

theorem witness_MovesTheSpecLacksStopByName :
    detached.par.attached = false ∧ big.par.nb ≤ 2 ∧ Command.fits big.par.argWidth ⟨0x1, 4294967296, 0⟩ = false ∧
    { big with par := { big.par with nb := 0 } }.par.wf = false := by decide

theorem witness_AddressMapping :
    (0 < big.W ∧ 15 < big.W ∧ 0 < big.par.nb ∧ 1 < big.par.nb ∧ big.par.endian = .big) ∧
    (0 < little.W ∧ 15 < little.W ∧ 1 < little.par.nb ∧ little.par.endian = .little) := by decide

theorem witness_StorageReadsAsOneInteger :
    (0 < big.W ∧ 15 < big.W ∧ big.addr 15 = big.addr 15 ∧ 1 < big.par.nb ∧ 7 < 8) ∧
    little.par.endian = .little ∧ big.par.endian = .big ∧ little.par.nb = big.par.nb ∧ little.value = big.value := by
  decide

theorem witness_ValueIsTheSumOfItsBytes : 0 < big.par.nb ∧ 1 < big.par.nb ∧ 0 < 8 ∧ 7 < 8 := by decide

/-- For MapRespondsTheLocation, GetRespondsTheBit, SetWritesOneBit, ToggleFlipsOneBit and SetAllFillsEveryByte: the
clauses meet at the indices `W - 1` and `W`. -/
theorem witness_IndexClauses :
    (big.faulted = false ∧ big.par.attached = true ∧ 0 < big.W ∧ 15 < big.W) ∧
    (detached.faulted = false ∧ detached.par.attached = false) ∧
    (big.W ≤ 16 ∧ big.par.checked = true) ∧
    (unchecked.faulted = false ∧ unchecked.par.attached = true ∧ unchecked.W ≤ 16 ∧ unchecked.par.checked = false) := by
  decide

theorem witness_SwapExchangesTwoBits :
    big.faulted = false ∧ big.par.attached = true ∧ 15 < big.W ∧ 0 < big.W ∧ big.W ≤ 16 ∧
    big.value.testBit 1 = big.value.testBit 2 ∧ big.value.testBit 8 ≠ big.value.testBit 0 := by decide

/-- For GetAfterSetRespondsTheValue, NormalizationOfPositions, ShiftLeftMovesEveryBit, ShiftRightMovesEveryBit,
TwoPhaseAlgorithm, ShiftsCompleteAtEveryCount, ShiftRoundTrip, RotateInverse and ZeroFillShiftsAreArithmetic: the counts
1, `W - 1` and `W`, and the logical bytes 0 and `NB - 1`. -/
theorem witness_Ready :
    big.Ready ∧ little.Ready ∧ 15 < big.W ∧ 1 ≤ big.par.nb ∧ big.W ≤ 16 ∧ 16 % big.W = 0 ∧ 0 < 1 ∧ 1 < big.W ∧
    0 < big.par.nb ∧ 1 < big.par.nb := by decide

theorem witness_WholeByteShiftMovesTheBytes :
    big.Ready ∧ 0 < 1 ∧ 1 < big.par.nb ∧ 0 < big.par.nb ∧ exec (.shlZ 8) big = .next (engine .left .zero 8 big) ∧
    exec (.shlO 8) big = .next (engine .left .one 8 big) ∧ exec (.shlR 8) big = .next (engine .left .ring 8 big) ∧
    exec (.shrZ 8) big = .next (engine .right .zero 8 big) ∧ exec (.shrO 8) big = .next (engine .right .one 8 big) ∧
    exec (.shrR 8) big = .next (engine .right .ring 8 big) :=
  ⟨by decide, by decide, by decide, by decide, rfl, rfl, rfl, rfl, rfl, rfl⟩

theorem witness_SubBitShiftCarriesBetweenBytes :
    big.Ready ∧ 1 ≤ 7 ∧ 7 ≤ 7 ∧ 0 < big.par.nb ∧ 1 < big.par.nb ∧
    exec (shiftCommand .left .ring 7) big = .next (engine .left .ring 7 big) ∧
    exec (shiftCommand .right .one 1) big = .next (engine .right .one 1 big) :=
  ⟨by decide, by decide, by decide, by decide, by decide, rfl, rfl⟩

theorem witness_ShiftsDoNotDependOnByteOrder :
    big.Ready ∧ little.Ready ∧ big.par.nb = little.par.nb ∧ big.value = little.value ∧ 1 < big.par.nb := by decide

theorem witness_FaultEntry :
    (Cause.indexOutOfRange 16, 3, 16) ∈ [(Cause.illegalCommand 0x36, 1, 0x36 % 2 ^ big.par.argWidth),
      (Cause.invalidReference, 2, 0), (Cause.indexOutOfRange 16, 3, 16), (Cause.unspecified 16, 4, 16)] ∧
    (1 ≠ 0 ∧ 1 < 4) ∧ (3 ≠ 0 ∧ 3 < 4) ∧ (8 ≠ 0 ∧ 8 ≤ 8) ∧
    Cause.invalidReference ∈ [Cause.illegalCommand 0x36, Cause.invalidReference, Cause.indexOutOfRange 16] := by decide

/-- For HaltedBlockTakesNoCommand and HaltedBlockLetsTheHostGoOn. -/
theorem witness_HaltedBlockTakesNoCommand :
    halted.faulted = true ∧ Command.fits halted.par.argWidth ⟨0x3, 0, 0⟩ = true ∧ halted.par.attached = true ∧
    1 < halted.par.nb ∧ perform (.command ⟨0x3, 0, 0⟩) halted = .next halted.noAnswer ∧ perform .reset halted = .next halted.applyReset ∧ halted.applyReset.faulted = false :=
  ⟨by decide, by decide, by decide, by decide, rfl, rfl, by decide⟩

theorem witness_NoStorageIsInvalidReference : detached.faulted = false ∧ detached.par.attached = false := by decide

/-- `SWAP 15, 16`: the first operand in range, the second the smallest index out of range; and `SWAP 0, 15`. -/
theorem witness_IndexCheckOfEveryCommand :
    big.Ready ∧ indexOperands (.swap 15 16) = [15] ++ 16 :: [] ∧ (∀ j ∈ [15], j < big.W) ∧ big.W ≤ 16 ∧
    big.par.checked = true ∧ unchecked.Ready ∧ unchecked.par.checked = false ∧ unchecked.W ≤ 16 ∧
    ∀ j ∈ indexOperands (.swap 0 15), j < big.W := by decide

theorem witness_FaultPriority :
    big.faulted = false ∧ detached.faulted = false ∧ Command.fits big.par.argWidth ⟨0x4, 16, 16⟩ = true ∧
    (0x36 : CmdWord) ∉ legalWords ∧ (0x4 : CmdWord) ∈ legalWords ∧ detached.par.attached = false ∧
    big.par.attached = true ∧ big.W ≤ 16 ∧ 15 < big.W := by decide

theorem witness_FaultsArePrecise :
    big.faulted = false ∧ perform (.command ⟨0x1, 16, 0⟩) big = .next halted ∧ halted.faulted = true ∧
    halted.faultCode ∈ [1, 2, 3] := ⟨by decide, rfl, by decide, by decide⟩

theorem witness_IllegalWordFaultsInBothModes :
    big.faulted = false ∧ unchecked.faulted = false ∧ Command.fits big.par.argWidth ⟨0x36, 5, 0⟩ = true ∧
    (0x36 : CmdWord) ∉ legalWords := by decide

theorem witness_CommandFrame :
    exec (.get 8) big = .next (big.respond 1 0) ∧ big.par.nb ≤ 2 ∧
    (big.respond 1 0).answer = some (.response { rstatus := .ok, r0 := 1, r1 := 0 }) := ⟨rfl, by decide, rfl⟩

theorem witness_EveryCommandEndsWithItsResponse : big.faulted = false ∧ detached.faulted = false := by decide

theorem witness_StatusChangesOnlyByFaultAndReset :
    step (issuing big 0x1 16 0) = .next halted ∧ halted.status ≠ (issuing big 0x1 16 0).status :=
  ⟨rfl, by decide⟩

theorem witness_RegisterReads : 4 ≤ 4 ∧ State.reset.register 4 = 0 := by decide

theorem witness_ConfigurationRegisters :
    big.par.attached = true ∧ detached.par.attached = false ∧ 3 ≤ 3 ∧ 3 ≤ 31 ∧ big.par.wf = true ∧ detached.par.wf = true ∧
    step big = .next big := ⟨by decide, by decide, by decide, by decide, by decide, by decide, rfl⟩

theorem witness_StatusRegister : 1 ≤ 1 ∧ 3 < 4 ∧ 8 ≤ 8 ∧ halted.Inv ∧ State.reset.Inv ∧ State.reset.faulted = false := by
  unfold State.Inv
  decide

theorem witness_StoragePort :
    big.par.attached = true ∧ 0 < big.par.nb ∧ 1 < big.par.nb ∧ 15 < big.W ∧ (big.addr 15).1 = 0 := by decide

theorem witness_ResetValues :
    detached.par.attached = false ∧ (State.reset.par.attached = true ∧ State.reset.par.init = .zeroed) ∧
    big.par.attached = true ∧ big.par.init = .borrowed [0x01, 0x2E] ∧ 2 = big.par.nb ∧ 1 < big.par.nb := by decide

theorem witness_ConstructionByNew :
    2 ^ 3 < 8 * ((9 + 7) / 8) ∧ 0 < 9 ∧ 8 * ((9 + 7) / 8) ≤ 2 ^ 4 ∧ 1 ≤ 1 := by decide

theorem witness_ConstructionFromBytes :
    4 ≤ 4 ∧ ([0x01, 0x2E] : List Byte) ≠ [] ∧ 8 * ([0x01, 0x2E] : List Byte).length ≤ 2 ^ 4 ∧ 1 ≤ 1 := by decide

theorem witness_ResetMeetsTheInvariant : Params.shown.wf = true ∧ detached.par.wf = true := by decide

theorem witness_StepKeepsTheInvariant :
    (issuing big 0x1 16 0).Inv ∧ step (issuing big 0x1 16 0) = .next halted := by
  refine ⟨?_, rfl⟩
  unfold State.Inv
  decide

theorem witness_DutifulHostNeverStopsTheBlock :
    (issuing big 0x1 16 0).par.wf = true ∧ (issuing big 0x1 16 0).Dutiful := by decide

end Sys2Proof.Tests
end

section
/-!
PROOFS. The registers CFG and SIZE: what the host reads in them (R24, R25), and that no action of the host changes the
parameters they are hardwired to.
-/

namespace Sys2Proof.Machine

/-- CFG has no bit above its three fields (R24). -/
theorem State.cfgReg_toNat_lt (s : State) : s.cfgReg.toNat < 2 ^ 3 := by
  unfold State.cfgReg
  cases s.par.endian <;> cases s.par.checked <;> cases s.par.attached <;> decide

theorem State.cfgReg_getLsbD_of_ge (s : State) {j : Nat} (hj : 3 ≤ j) : s.cfgReg.getLsbD j = false :=
  Nat.testBit_lt_two_pow (s.cfgReg_toNat_lt.trans_le (Nat.pow_le_pow_right (by decide) hj))

/-- The fields of CFG are ENDIAN, CHECKED and ATTACHED, from bit 0 up (R24). -/
theorem State.cfgReg_getLsbD_of_lt (s : State) {j : Nat} (hj : j < 3) :
    s.cfgReg.getLsbD j = [decide (s.par.endian = .big), s.par.checked, s.par.attached][j] := by
  unfold State.cfgReg
  interval_cases j <;> cases s.par.endian <;> cases s.par.checked <;> cases s.par.attached <;> rfl

theorem State.sizeReg_of_attached {s : State} (h : s.par.attached = true) : s.sizeReg = s.par.nb := by
  simp [State.sizeReg, h]

theorem State.sizeReg_of_detached {s : State} (h : s.par.attached = false) : s.sizeReg = 0 := by
  simp [State.sizeReg, h]

/-- The byte count of a block fits the operand buses: the buses carry every bit index (R11), and a byte has 8 of them. -/
theorem nb_lt_two_pow_argWidth_of_wf {p : Params} (h : p.wf = true) : p.nb < 2 ^ p.argWidth := by
  simp only [Params.wf, Bool.and_eq_true, decide_eq_true_eq] at h
  obtain ⟨⟨⟨hnb, hbus⟩, -⟩, -⟩ := h
  unfold Params.W at hbus
  omega

theorem State.sizeReg_lt_of_wf {s : State} (h : s.par.wf = true) : s.sizeReg < 2 ^ s.par.argWidth := by
  cases ha : s.par.attached with
  | true => rw [State.sizeReg_of_attached ha]; exact nb_lt_two_pow_argWidth_of_wf h
  | false => rw [State.sizeReg_of_detached ha]; exact Nat.two_pow_pos _

/-- CFG and SIZE are views of the parameters alone. -/
theorem State.cfgReg_congr {s t : State} (h : t.par = s.par) : t.cfgReg = s.cfgReg := by
  simp only [State.cfgReg, h]

theorem State.sizeReg_congr {s t : State} (h : t.par = s.par) : t.sizeReg = s.sizeReg := by
  simp only [State.sizeReg, h]

theorem exec_par {i : Instr} {s t : State} (h : exec i s = .next t) : t.par = s.par := by
  obtain ⟨-, he⟩ | ⟨-, -, he⟩ | ⟨-, k, -, -, he⟩ | ⟨-, -, u, he, hu⟩ := exec_cases i s <;>
    obtain rfl := Host.Outcome.next.inj (he.symm.trans h)
  · exact s.noAnswer_par
  · exact s.enterFault_par _
  · exact s.enterFault_par _
  · exact hu.par

theorem illegalCommand_par {w : CmdWord} {s t : State} (h : illegalCommand w s = .next t) : t.par = s.par := by
  unfold illegalCommand at h
  split at h <;> obtain rfl := Host.Outcome.next.inj h
  · exact s.noAnswer_par
  · exact s.enterFault_par _

theorem issueCommand_par {c : Command} {s t : State} (h : issueCommand c s = .next t) : t.par = s.par := by
  unfold issueCommand at h
  split at h
  · split at h
    · exact exec_par h
    · exact illegalCommand_par h
  · cases h

theorem readStorage_par {b : Nat} {s t : State} (h : readStorage b s = .next t) : t.par = s.par := by
  unfold readStorage at h
  split at h
  · obtain rfl := Host.Outcome.next.inj h
    rfl
  · cases h

theorem writeStorage_par {b : Nat} {v : Byte} {s t : State} (h : writeStorage b v s = .next t) : t.par = s.par := by
  unfold writeStorage at h
  split at h
  · obtain rfl := Host.Outcome.next.inj h
    rfl
  · cases h

/-- No action of the host changes a parameter. -/
theorem perform_par {a : HostAction} {s t : State} (h : perform a s = .next t) : t.par = s.par := by
  cases a with
  | command c => exact issueCommand_par h
  | readRegister r => obtain rfl := Host.Outcome.next.inj h; rfl
  | writeRegister r v => obtain rfl := Host.Outcome.next.inj h; rfl
  | readByte b => exact readStorage_par h
  | writeByte b v => exact writeStorage_par h
  | reset => obtain rfl := Host.Outcome.next.inj h; rfl

/-- Every step keeps the parameters of the instance (R6 to R13). -/
theorem step_par {s t : State} (h : step s = .next t) : t.par = s.par := by
  unfold step stepHost at h
  split at h
  · split at h
    · obtain rfl := Host.Outcome.next.inj h
      rfl
    · exact (perform_par h).trans rfl
  · cases h

/-- Settles O42: CFG and SIZE are views of the parameters, which no step changes. -/
theorem configurationRegisters : Obligations.ConfigurationRegisters := by
  intro s
  refine ⟨rfl, s.cfgReg_getLsbD_of_lt (by decide), s.cfgReg_getLsbD_of_lt (by decide),
    s.cfgReg_getLsbD_of_lt (by decide), fun _ => s.cfgReg_getLsbD_of_ge, State.sizeReg_of_attached,
    State.sizeReg_of_detached, State.sizeReg_lt_of_wf, fun _ _ _ => rfl, fun t h => ?_⟩
  have hpar : t.par = s.par := step_par h
  exact ⟨congrArg BitVec.toNat (State.cfgReg_congr hpar), State.sizeReg_congr hpar⟩

end Sys2Proof.Machine
end

section
/-!
PROOFS. The storage as bytes: the logical integer as the weighted sum of its bytes and the eight logical bits of a
physical byte (R43), and the storage port (R44).
-/

namespace Sys2Proof.Machine

/-- The first `n` logical bytes are summed at their weights (R43). -/
theorem State.valueOfBytes_eq_sum (s : State) (n : Nat) :
    s.valueOfBytes n = ∑ k ∈ Finset.range n, (s.byteAt (s.phys k)).toNat * 2 ^ (8 * k) := by
  induction n with
  | zero => rfl
  | succ n ih => rw [Finset.sum_range_succ, ← ih, State.valueOfBytes, State.logicalByte]

/-- The eight logical bits from `8 * phys b` up lie in physical byte `b`, in order (R43, R81). -/
theorem State.addr_bit_of_byte (s : State) {b j : Nat} (hb : b < s.par.nb) (hj : j < 8) :
    s.addr (8 * s.phys b + j) = (b, j) := by
  have hdiv : (8 * s.phys b + j) / 8 = s.phys b := by omega
  have hmod : (8 * s.phys b + j) % 8 = j := by omega
  rw [State.addr, hdiv, hmod, s.phys_phys hb]

/-- A logical bit in range is the addressed bit of the storage (R82). -/
theorem State.value_testBit_of_lt (s : State) {i : Nat} (hi : i < s.W) :
    s.value.testBit i = (s.byteAt (s.addr i).1).getLsbD (s.addr i).2 := by
  rw [s.value_testBit, decide_eq_true hi, Bool.true_and, State.getBit]

/-- Bit `j` of physical byte `b` is logical bit `8 * phys b + j` (R43). -/
theorem State.byteAt_getLsbD_eq_value_testBit (s : State) {b j : Nat} (hb : b < s.par.nb) (hj : j < 8) :
    (s.byteAt b).getLsbD j = s.value.testBit (8 * s.phys b + j) := by
  have hi : 8 * s.phys b + j < s.W := by
    have := s.phys_lt hb
    unfold State.W
    omega
  rw [s.value_testBit_of_lt hi, s.addr_bit_of_byte hb hj]

/-- Settles O10: the sum by induction on the number of bytes, the bits through the address of a byte's bit. -/
theorem valueIsTheSumOfItsBytes : Obligations.ValueIsTheSumOfItsBytes := fun s =>
  ⟨s.valueOfBytes_eq_sum s.par.nb, fun _ _ hb hj => s.byteAt_getLsbD_eq_value_testBit hb hj⟩

/-- The storage port reaches every byte below `NB` of an attached block (R44). -/
theorem State.hasByte_of_lt {s : State} {b : Nat} (ha : s.par.attached = true) (hb : b < s.par.nb) :
    s.hasByte b = true := by
  simp [State.hasByte, ha, hb]

theorem perform_readByte {s : State} {b : Nat} (h : s.hasByte b = true) :
    perform (.readByte b) s = .next { s with answer := some (.byte (s.byteAt b)) } :=
  if_pos h

theorem perform_writeByte {s : State} {b : Nat} (v : Byte) (h : s.hasByte b = true) :
    perform (.writeByte b v) s = .next (s.writeByte b v).noAnswer :=
  if_pos h

/-- The logical bits of a byte just written are the bits of what was written. -/
theorem State.writeByte_value_testBit (s : State) (v : Byte) {i : Nat} (hi : i < s.W) :
    (s.writeByte (s.addr i).1 v).value.testBit i = v.getLsbD (i % 8) := by
  rw [State.value_testBit_of_lt _ (by simpa using hi), State.writeByte_addr, State.writeByte_byteAt, if_pos rfl,
    State.addr]

/-- The logical integer is a view of the storage and the parameters, and no answer is part of it. -/
@[simp] theorem State.noAnswer_value (s : State) : s.noAnswer.value = s.value :=
  s.noAnswer.value_eq_of_bits s.value_testBit

/-- Settles O44: the write by the law of one written byte, the read of it and the logical bits by that write. -/
theorem storagePort : Obligations.StoragePort := by
  intro s b v ha hb
  have hport : s.hasByte b = true := State.hasByte_of_lt ha hb
  have hbyte : ∀ c, (s.writeByte b v).noAnswer.byteAt c = if c = b then v else s.byteAt c :=
    fun c => s.writeByte_byteAt b c v
  refine ⟨perform_readByte hport, (s.writeByte b v).noAnswer, perform_writeByte v hport, rfl, hbyte, ?_, ?_⟩
  · rw [perform_readByte (s := (s.writeByte b v).noAnswer) hport, hbyte, if_pos rfl]
  · rintro i hi rfl
    rw [State.noAnswer_value, s.writeByte_value_testBit v hi]

end Sys2Proof.Machine
end

section
/-!
PROOFS. The encoding: what the decoder answers, said once through the encoder (R63 to R65, R72), the legal words (R67,
R69), and the command interface on a legal and on an illegal word.
-/

namespace Sys2Proof

/-- What the fields select is encoded by those fields and by the buses the command uses. -/
theorem encode_of_decodeFields {op fill a b : Nat} {i : Instr} (h : decodeFields op fill a b = .ok i) :
    encode i = { cmd := commandWord op fill, a := if i.usesA then a else 0, b := if i.usesB then b else 0 } := by
  unfold decodeFields at h
  split at h
  case h_13 | h_14 => cases h
  case h_15 => split at h <;> cases h
  all_goals cases h; rfl

/-- Only a word with `RSV = 0` is decoded, by its other two fields. -/
theorem decodeFields_of_decode {c : Command} {i : Instr} (h : decode c = .ok i) :
    rsvField c.cmd = 0 ∧ decodeFields (opField c.cmd) (fillField c.cmd) c.a c.b = .ok i := by
  unfold decode at h
  split at h
  · exact ⟨‹_›, h⟩
  · cases h

/-- A word with `RSV = 0` is made of `OP` and `FILL`. -/
theorem commandWord_of_rsvField_eq_zero {w : CmdWord} (h : rsvField w = 0) :
    commandWord (opField w) (fillField w) = w := by
  conv_rhs => rw [word_of_fields w, h]
  rw [commandWord, Nat.zero_mul, Nat.zero_add]

/-- A word made of `OP` and `FILL` is decoded by them. -/
theorem decode_commandWord {op fill : Nat} (ho : op < 16) (hf : fill < 4) (a b : Nat) :
    decode { cmd := commandWord op fill, a := a, b := b } = decodeFields op fill a b := by
  have hnat : (commandWord op fill).toNat = fill * 16 + op := by
    rw [commandWord, BitVec.toNat_ofNat]
    omega
  have hop : opField (commandWord op fill) = op := by
    rw [opField, hnat]
    omega
  have hfill : fillField (commandWord op fill) = fill := by
    rw [fillField, hnat]
    omega
  simp only [decode_mk, rsvField_commandWord ho hf, hop, hfill]

/-- Everything the decoder answers: a command decodes to `i` exactly when the encoding of `i` is its word and the buses
`i` uses. -/
theorem decode_eq_ok_iff (c : Command) (i : Instr) :
    decode c = .ok i ↔
      encode i = { cmd := c.cmd, a := if i.usesA then c.a else 0, b := if i.usesB then c.b else 0 } := by
  constructor
  · intro h
    obtain ⟨hrsv, hfields⟩ := decodeFields_of_decode h
    rw [encode_of_decodeFields hfields, commandWord_of_rsvField_eq_zero hrsv]
  · intro h
    obtain ⟨w, a, b⟩ := c
    cases i <;> cases h <;> exact decode_commandWord (by decide) (by decide) a b

/-- Decoding reads the word and the buses the command uses, and nothing else (R72). -/
theorem decode_of_usedBuses_eq {c d : Command} {i : Instr} (hc : decode c = .ok i) (hcmd : c.cmd = d.cmd)
    (ha : i.usesA = true → c.a = d.a) (hb : i.usesB = true → c.b = d.b) : decode d = .ok i := by
  rw [decode_eq_ok_iff] at hc ⊢
  rw [hc, hcmd, ite_congr rfl ha fun _ => rfl, ite_congr rfl hb fun _ => rfl]

theorem Instr.word_mem_legalWords (i : Instr) : i.word ∈ Machine.legalWords := by
  cases i <;> simp [Instr.word, commandWord, Machine.legalWords]

/-- A command whose word and used buses are those of an encoding decodes to what was encoded. -/
theorem decode_of_encode {w : CmdWord} {a b : Nat} {i : Instr}
    (h : encode i = { cmd := w, a := if i.usesA then a else 0, b := if i.usesB then b else 0 }) :
    decode { cmd := w, a := a, b := b } = .ok i :=
  (decode_eq_ok_iff _ i).mpr h

/-- Settles O3: each of the twelve words is the word of its command in the encoder. -/
theorem twelveWordsSelectTheirCommands : Obligations.TwelveWordsSelectTheirCommands := by
  refine ⟨fun a b => ?_, fun _ => ⟨rfl, rfl⟩⟩
  and_intros <;> exact decode_of_encode rfl

/-- A command decodes exactly when its word is one of the twelve (R67), whatever its buses carry. -/
theorem exists_decode_eq_ok_iff (c : Command) : (∃ i, decode c = .ok i) ↔ c.cmd ∈ Machine.legalWords := by
  constructor
  · rintro ⟨i, h⟩
    have hword : i.word = c.cmd := congrArg Command.cmd ((decode_eq_ok_iff c i).mp h)
    exact hword ▸ i.word_mem_legalWords
  · obtain ⟨w, a, b⟩ := c
    obtain ⟨hget, hset, htoggle, hswap, hsetAll, hshlZ, hshlO, hshlR, hshrZ, hshrO, hshrR, hmap⟩ :=
      twelveWordsSelectTheirCommands.1 a b
    simp only [Machine.legalWords, List.mem_cons, List.not_mem_nil, or_false]
    rintro (rfl | rfl | rfl | rfl | rfl | rfl | rfl | rfl | rfl | rfl | rfl | rfl)
    exacts [⟨_, hget⟩, ⟨_, hset⟩, ⟨_, htoggle⟩, ⟨_, hswap⟩, ⟨_, hsetAll⟩, ⟨_, hshlZ⟩, ⟨_, hshlO⟩, ⟨_, hshlR⟩,
      ⟨_, hshrZ⟩, ⟨_, hshrO⟩, ⟨_, hshrR⟩, ⟨_, hmap⟩]

/-- The fields of a legal word: `OP` from 1 to 8, `RSV = 0`, and a `FILL` that only a shift sets, to one of its three
policies (R63 to R65). -/
theorem fields_of_mem_legalWords {w : CmdWord} (h : w ∈ Machine.legalWords) :
    (w.extractLsb' 0 4 ≠ 0 ∧ (w.extractLsb' 0 4).toNat < 9) ∧ w.extractLsb' 6 26 = 0 ∧
      ((w.extractLsb' 0 4 = 6 ∨ w.extractLsb' 0 4 = 7) → w.extractLsb' 4 2 ≠ 3) ∧
      ((w.extractLsb' 0 4 ≠ 6 ∧ w.extractLsb' 0 4 ≠ 7) → w.extractLsb' 4 2 = 0) := by
  simp only [Machine.legalWords, List.mem_cons, List.not_mem_nil, or_false] at h
  obtain rfl | rfl | rfl | rfl | rfl | rfl | rfl | rfl | rfl | rfl | rfl | rfl := h <;> decide

namespace Machine

/-- A running block raises ILLEGAL_COMMAND on an illegal word (R156). -/
theorem illegalCommand_running {s : State} (w : CmdWord) (hf : s.faulted = false) :
    illegalCommand w s = .next (s.enterFault (.illegalCommand w)) := by
  simp [illegalCommand, hf]

theorem issueCommand_of_decode {s : State} {c : Command} {i : Instr} (hfit : c.fits s.par.argWidth = true)
    (h : decode c = .ok i) : issueCommand c s = exec i s := by
  simp [issueCommand, hfit, h]

theorem issueCommand_of_not_mem_legalWords {s : State} {c : Command} (hfit : c.fits s.par.argWidth = true)
    (h : c.cmd ∉ legalWords) : issueCommand c s = illegalCommand c.cmd s := by
  cases hd : decode c with
  | ok i => exact absurd ((exists_decode_eq_ok_iff c).mp ⟨i, hd⟩) h
  | error e => simp [issueCommand, hfit, hd]

/-- Settles O2: a word that decodes is the word of its command, the interface hands every other word to
ILLEGAL_COMMAND, and the fields of the twelve words rule out the four cases. -/
theorem otherWordsAreIllegal : Obligations.OtherWordsAreIllegal := by
  refine ⟨exists_decode_eq_ok_iff, fun s c hf hfit hw => ?_, fun w hcase hw => ?_⟩
  · rw [issueCommand_of_not_mem_legalWords hfit hw, illegalCommand_running c.cmd hf]
  · obtain ⟨⟨hop, hlt⟩, hrsv, hshift, hother⟩ := fields_of_mem_legalWords hw
    obtain (h | h) | h | ⟨hs, h⟩ | ⟨hs, h⟩ := hcase
    · exact hop h
    · exact hlt.not_ge h
    · exact h hrsv
    · exact hshift hs h
    · exact h (hother hs)

/-- Settles O4: on a legal word both commands decode to the same command, on any other both are illegal by the word. -/
theorem unusedBusIsIgnored : Obligations.UnusedBusIsIgnored := by
  intro s c d hcfit hdfit hcmd hbuses
  by_cases hw : c.cmd ∈ legalWords
  · obtain ⟨i, hc⟩ := (exists_decode_eq_ok_iff c).mpr hw
    obtain ⟨ha, hb⟩ := hbuses i hc
    have hd : decode d = .ok i := decode_of_usedBuses_eq hc hcmd ha hb
    rw [issueCommand_of_decode hcfit hc, issueCommand_of_decode hdfit hd]
  · rw [issueCommand_of_not_mem_legalWords hcfit hw, issueCommand_of_not_mem_legalWords hdfit (hcmd ▸ hw), hcmd]

end Machine

end Sys2Proof
end

section
/-!
PROOFS. The addresses: the mapping of logical bits onto the bits of the bytes (R81, R82), the command that responds it
(R85), and the index check (R83, R155).
-/

namespace Sys2Proof.Machine

theorem State.phys_of_little {s : State} (h : s.par.endian = .little) (k : Nat) : s.phys k = k := by
  simp [State.phys, h]

theorem State.phys_of_big {s : State} (h : s.par.endian = .big) (k : Nat) : s.phys k = s.par.nb - 1 - k := by
  simp [State.phys, h]

/-- Settles O8: the address of a bit is the physical place of its byte, in the one byte order and in the other. -/
theorem addressMapping : Obligations.AddressMapping := by
  refine fun s => ⟨fun i hi => ⟨s.addr_byte_lt hi, s.addr_offset_lt i, rfl, fun h => ?_, fun h => ?_⟩,
    fun k _ => ⟨fun h => s.phys_of_little h k, fun h => s.phys_of_big h k⟩⟩
  · rw [State.addr, State.phys_of_little h]
  · rw [State.addr, State.phys_of_big h]

/-- The logical integer has `W` bits (R15, R82). -/
theorem State.value_lt_two_pow_W (s : State) : s.value < 2 ^ s.W := by
  rw [State.W, Nat.mul_comm]
  exact s.valueOfBytes_lt s.par.nb

/-- Every bit of every byte is the address of a logical bit (R82). -/
theorem State.exists_addr_eq (s : State) {b j : Nat} (hb : b < s.par.nb) (hj : j < 8) :
    ∃ i, i < s.W ∧ s.addr i = (b, j) := by
  have hp : s.phys b < s.par.nb := s.phys_lt hb
  have hi : 8 * s.phys b + j < s.W := by
    unfold State.W
    omega
  exact ⟨_, hi, s.addr_bit_of_byte hb hj⟩

/-- Logical byte `k` holds the logical bits from `8 * k` up (R15). -/
theorem State.logicalByte_getLsbD_eq_value_testBit (s : State) {k j : Nat} (hk : k < s.par.nb) (hj : j < 8) :
    (s.logicalByte k).getLsbD j = s.value.testBit (8 * k + j) := by
  rw [State.logicalByte, s.byteAt_getLsbD_eq_value_testBit (s.phys_lt hk) hj, s.phys_phys hk]

/-- Two blocks of one size read as the same integer when they hold the same logical bytes, and only then. -/
theorem State.value_eq_iff_logicalByte_eq {s t : State} (hnb : s.par.nb = t.par.nb) :
    s.value = t.value ↔ ∀ k, k < s.par.nb → s.logicalByte k = t.logicalByte k := by
  constructor
  · intro h k hk
    refine BitVec.eq_of_getLsbD_eq fun j hj => ?_
    rw [s.logicalByte_getLsbD_eq_value_testBit hk hj, t.logicalByte_getLsbD_eq_value_testBit (hnb ▸ hk) hj, h]
  · intro h
    rw [State.value, State.value, ← hnb, State.valueOfBytes_eq_sum, State.valueOfBytes_eq_sum]
    exact Finset.sum_congr rfl fun k hk =>
      congrArg (fun x : Byte => x.toNat * 2 ^ (8 * k)) (h k (Finset.mem_range.mp hk))

/-- Settles O9: the integer is made of the logical bytes, and these are the physical bytes in order in a little block,
and in reverse order in a big one. -/
theorem storageReadsAsOneInteger : Obligations.StorageReadsAsOneInteger := by
  refine ⟨fun s => ⟨s.value_lt_two_pow_W,
    fun i hi => ⟨s.addr_byte_lt hi, s.addr_offset_lt i, s.value_testBit_of_lt hi⟩,
    fun _ _ => s.addr_inj, fun _ _ => s.exists_addr_eq⟩, fun s t hs ht hnb => ?_⟩
  simp only [State.value_eq_iff_logicalByte_eq hnb, State.logicalByte, State.phys_of_little hs,
    State.phys_of_big ht, hnb]

theorem State.indexCause_of_checked {s : State} (h : s.par.checked = true) (i : Nat) :
    s.indexCause i = .indexOutOfRange i :=
  if_pos h

theorem State.indexCause_of_unchecked {s : State} (h : s.par.checked = false) (i : Nat) :
    s.indexCause i = .unspecified i := by
  simp [State.indexCause, h]

/-- With no storage every command is an invalid reference (R154). -/
theorem exec_detached {s : State} (i : Instr) (hf : s.faulted = false) (ha : s.par.attached = false) :
    exec i s = .next (s.enterFault .invalidReference) := by
  obtain ⟨effect, hexec, -⟩ := exec_eq_runCommand i
  rw [hexec s, runCommand_detached _ effect hf ha]

/-- The first index operand out of range is the fault of every command (R83, R90). -/
theorem exec_index {s : State} {i : Instr} {pre post : List Nat} {k : Nat} (hr : s.Ready)
    (hi : indexOperands i = pre ++ k :: post) (hpre : ∀ j ∈ pre, j < s.W) (hk : s.W ≤ k) :
    exec i s = .next (s.enterFault (s.indexCause k)) := by
  obtain ⟨effect, hexec, -⟩ := exec_eq_runCommand i
  rw [hexec s, hi, runCommand_index effect hr.1 hr.2 hpre hk]

/-- A command whose index operands are in range completes (R83, R90). -/
theorem exec_completed {s : State} {i : Instr} (hr : s.Ready) (hi : ∀ j ∈ indexOperands i, j < s.W) :
    ∃ t, exec i s = .next t ∧ Completed s t := by
  obtain ⟨effect, hexec, hdone⟩ := exec_eq_runCommand i
  exact ⟨effect s, (hexec s).trans (runCommand_effect effect hr.1 hr.2 hi), hdone s⟩

/-- Settles O33: the first index out of range decides the fault and the mode its cause; with none, the
command completes. -/
theorem indexCheckOfEveryCommand : Obligations.IndexCheckOfEveryCommand := by
  refine fun s i hr => ⟨fun pre k post hi hpre hk => ?_, fun hi => ?_⟩
  · rw [exec_index hr hi hpre hk]
    exact ⟨fun h => by rw [State.indexCause_of_checked h], fun h => by rw [State.indexCause_of_unchecked h]⟩
  · obtain ⟨t, hexec, hdone⟩ := exec_completed hr hi
    obtain ⟨r0, r1, hanswer⟩ := hdone.answer
    exact ⟨t, r0, r1, hexec, hanswer⟩

/-- `MAP` in range responds the address and changes nothing else (R85). -/
theorem exec_map_of_lt {s : State} {a : Nat} (hr : s.Ready) (ha : a < s.W) :
    exec (.map a) s = .next (s.respond (s.addr a).1 (s.addr a).2) := by
  rw [exec_map]
  exact runCommand_effect _ hr.1 hr.2 (by simpa using ha)

/-- `MAP` out of range faults with its index (R83, R85). -/
theorem exec_map_of_ge {s : State} {a : Nat} (hr : s.Ready) (ha : s.W ≤ a) :
    exec (.map a) s = .next (s.enterFault (s.indexCause a)) :=
  exec_index (pre := []) hr rfl (by simp) ha

/-- Settles O11: the response is the address by definition, and the faults are those of every command. -/
theorem mapRespondsTheLocation : Obligations.MapRespondsTheLocation := by
  refine fun s a hf => ⟨fun b => decode_of_encode rfl, fun hatt ha => exec_map_of_lt ⟨hf, hatt⟩ ha,
    exec_detached _ hf, ?_, ?_⟩
  · intro hatt ha hc
    rw [exec_map_of_ge ⟨hf, hatt⟩ ha, State.indexCause_of_checked hc]
  · intro hatt ha hc
    rw [exec_map_of_ge ⟨hf, hatt⟩ ha, State.indexCause_of_unchecked hc]

end Sys2Proof.Machine
end

section
/-!
PROOFS. The accessors and the bulk fill: each command's effect on a ready block whose indices are in range, the bits it
leaves, and its faults (R91 to R96).
-/

namespace Sys2Proof.Machine

/-! ### The faults of a command with one index operand -/

/-- A command with one index operand faults with no storage (R154), and on an index out of range by the mode of the block
(R83). -/
theorem exec_faults_of_one_index {s : State} {i : Instr} {a : Nat} (hf : s.faulted = false)
    (hi : indexOperands i = [a]) :
    (s.par.attached = false → exec i s = .next (s.enterFault .invalidReference)) ∧
    (s.par.attached = true → s.W ≤ a → s.par.checked = true → exec i s = .next (s.enterFault (.indexOutOfRange a))) ∧
    (s.par.attached = true → s.W ≤ a → s.par.checked = false → exec i s = .next (s.enterFault (.unspecified a))) := by
  have hindex (hatt : s.par.attached = true) (ha : s.W ≤ a) : exec i s = .next (s.enterFault (s.indexCause a)) :=
    exec_index (pre := []) ⟨hf, hatt⟩ hi (by simp) ha
  refine ⟨exec_detached i hf, fun hatt ha hc => ?_, fun hatt ha hc => ?_⟩
  · rw [hindex hatt ha, State.indexCause_of_checked hc]
  · rw [hindex hatt ha, State.indexCause_of_unchecked hc]

/-! ### GET -/

theorem State.getBit_of_lt (s : State) {i : Nat} (hi : i < s.W) : s.getBit i = s.value.testBit i :=
  (s.value_testBit_of_lt hi).symm

/-- `GET` in range responds the bit of the logical integer (R91). -/
theorem exec_get_of_lt {s : State} {a : Nat} (hr : s.Ready) (ha : a < s.W) :
    exec (.get a) s = .next (s.respond (if s.value.testBit a then 1 else 0) 0) := by
  rw [exec_get, runCommand_effect _ hr.1 hr.2 (by simpa using ha), s.getBit_of_lt ha, Bool.toNat, Bool.cond_eq_ite]

/-- Settles O12: the bit read is the bit of the integer, and the faults are those of one index. -/
theorem getRespondsTheBit : Obligations.GetRespondsTheBit := fun _ _ hf =>
  ⟨fun _ => decode_of_encode rfl, fun hatt ha => exec_get_of_lt ⟨hf, hatt⟩ ha, exec_faults_of_one_index hf rfl⟩

/-! ### SET -/

/-- `SET` in range puts the Boolean of its value into the addressed bit (R92). -/
theorem exec_set_of_lt {s : State} {a : Nat} (v : Nat) (hr : s.Ready) (ha : a < s.W) :
    exec (.set a v) s = .next ((s.putBit a (boolOf v)).respond 0 0) := by
  rw [exec_set]
  exact runCommand_effect _ hr.1 hr.2 (by simpa using ha)

/-- Settles O13: the effect is one bit put, and the faults are those of one index. -/
theorem setWritesOneBit : Obligations.SetWritesOneBit := fun s a v hf =>
  ⟨decode_of_encode rfl,
    fun hatt ha => ⟨_, exec_set_of_lt v ⟨hf, hatt⟩ ha, rfl, s.putBit_getLsbD a (boolOf v)⟩,
    exec_faults_of_one_index hf rfl⟩

/-! ### TOGGLE -/

/-- The storage write of `TOGGLE i` (R93): the byte of logical bit `i` with that bit flipped. -/
def State.flipBit (s : State) (i : Nat) : State :=
  s.writeByte (s.addr i).1 (s.byteAt (s.addr i).1 ^^^ (1#8 <<< (s.addr i).2))

theorem State.flipBit_getLsbD (s : State) (i b k : Nat) :
    ((s.flipBit i).byteAt b).getLsbD k =
      if b = (s.addr i).1 ∧ k = (s.addr i).2 then !(s.byteAt b).getLsbD k else (s.byteAt b).getLsbD k := by
  rw [State.flipBit, State.writeByte_byteAt]
  by_cases hb : b = (s.addr i).1
  · simp [hb, Machine.flipBit_getLsbD _ (s.addr_offset_lt i)]
  · simp [hb]

/-- Flipping a bit twice restores every byte (R93). -/
theorem State.flipBit_respond_flipBit_byteAt (s : State) (i r0 r1 b : Nat) :
    (((s.flipBit i).respond r0 r1).flipBit i).byteAt b = s.byteAt b := by
  refine BitVec.eq_of_getLsbD_eq fun k _ => ?_
  have haddr : ((s.flipBit i).respond r0 r1).addr = s.addr := rfl
  rw [State.flipBit_getLsbD, State.respond_byteAt, State.flipBit_getLsbD, haddr]
  split_ifs
  · exact Bool.not_not _
  · rfl

/-- `TOGGLE` in range flips the addressed bit (R93). -/
theorem exec_toggle_of_lt {s : State} {a : Nat} (hr : s.Ready) (ha : a < s.W) :
    exec (.toggle a) s = .next ((s.flipBit a).respond 0 0) := by
  rw [exec_toggle]
  exact runCommand_effect _ hr.1 hr.2 (by simpa using ha)

/-- Settles O14: the effect is one bit flipped, the block is ready for a second flip of it, and the faults are those of
one index. -/
theorem toggleFlipsOneBit : Obligations.ToggleFlipsOneBit := by
  refine fun s a hf => ⟨fun _ => decode_of_encode rfl, fun hatt ha => ?_, exec_faults_of_one_index hf rfl⟩
  have hagain := exec_toggle_of_lt (s := (s.flipBit a).respond 0 0) ⟨hf, hatt⟩ ha
  exact ⟨_, exec_toggle_of_lt ⟨hf, hatt⟩ ha, rfl, s.flipBit_getLsbD a, _, hagain,
    s.flipBit_respond_flipBit_byteAt a 0 0⟩

/-! ### SWAP -/

/-- The storage writes of `SWAP i, j` (R94): both bits read before either is put. -/
def State.swapBits (s : State) (i j : Nat) : State :=
  (s.putBit i (s.getBit j)).putBit j (s.getBit i)

/-- The two bits are exchanged and no other changes (R94); where both indices are one, the two values put are one. -/
theorem State.swapBits_getLsbD (s : State) {i j : Nat} (hi : i < s.W) (hj : j < s.W) (b k : Nat) :
    ((s.swapBits i j).byteAt b).getLsbD k =
      if (b, k) = s.addr i then s.value.testBit j
      else if (b, k) = s.addr j then s.value.testBit i else (s.byteAt b).getLsbD k := by
  have hput : ((s.swapBits i j).byteAt b).getLsbD k =
      if (b, k) = s.addr j then s.value.testBit i
      else if (b, k) = s.addr i then s.value.testBit j else (s.byteAt b).getLsbD k := by
    simp only [State.swapBits, State.putBit_getLsbD, State.putBit_addr, s.getBit_of_lt hi, s.getBit_of_lt hj,
      Prod.ext_iff]
  rw [hput]
  split_ifs with hbj hbi
  · obtain rfl : i = j := s.addr_inj hi hj (hbi.symm.trans hbj)
    rfl
  all_goals rfl

/-- The bit at the address of a logical bit is that logical bit (R82). -/
theorem State.byteAt_getLsbD_of_eq_addr (s : State) {i b k : Nat} (hi : i < s.W) (h : (b, k) = s.addr i) :
    (s.byteAt b).getLsbD k = s.value.testBit i := by
  rw [s.value_testBit_of_lt hi, ← h]

/-- Exchanging two equal bits changes no byte (R94). -/
theorem State.swapBits_byteAt_of_eq (s : State) {i j : Nat} (hi : i < s.W) (hj : j < s.W)
    (h : s.value.testBit i = s.value.testBit j) (b : Nat) : (s.swapBits i j).byteAt b = s.byteAt b := by
  refine BitVec.eq_of_getLsbD_eq fun k _ => ?_
  rw [s.swapBits_getLsbD hi hj]
  split_ifs with hbi hbj
  · rw [s.byteAt_getLsbD_of_eq_addr hi hbi, h]
  · rw [s.byteAt_getLsbD_of_eq_addr hj hbj, h]
  · rfl

/-- `SWAP` in range exchanges the two bits (R94). -/
theorem exec_swap_of_lt {s : State} {a b : Nat} (hr : s.Ready) (ha : a < s.W) (hb : b < s.W) :
    exec (.swap a b) s = .next ((s.swapBits a b).respond 0 0) := by
  rw [exec_swap]
  exact runCommand_effect _ hr.1 hr.2 (by simp [ha, hb])

/-- Settles O15: the effect is two bits exchanged, and `A` precedes `B` among the index operands. -/
theorem swapExchangesTwoBits : Obligations.SwapExchangesTwoBits := by
  refine fun s a b hf => ⟨decode_of_encode rfl, fun hatt ha hb => ?_, exec_detached _ hf, fun hatt ha => ?_,
    fun hatt ha hb => ?_⟩
  · refine ⟨_, exec_swap_of_lt ⟨hf, hatt⟩ ha hb, rfl, fun c k => ?_, fun h c => ?_⟩
    · rw [State.respond_byteAt, s.swapBits_getLsbD ha hb]
    · have hbit : s.value.testBit a = s.value.testBit b := h.elim (congrArg s.value.testBit) id
      rw [State.respond_byteAt, s.swapBits_byteAt_of_eq ha hb hbit]
  · exact exec_index (pre := []) ⟨hf, hatt⟩ rfl (by simp) ha
  · exact exec_index (pre := [a]) ⟨hf, hatt⟩ rfl (by simpa using ha) hb

/-! ### SET_ALL -/

/-- After a fill, logical bit `i` is the bit of the fill byte at its offset (R95). -/
theorem State.fillAll_getBit (s : State) (x : Byte) {i : Nat} (hi : i < s.W) :
    (s.fillAll x).getBit i = x.getLsbD (i % 8) := by
  rw [State.getBit, State.fillAll_addr, State.fillAll_byteAt, if_pos (s.addr_byte_lt hi), State.addr]

theorem State.fillAll_zeros_value (s : State) : (s.fillAll 0x00).value = 0 := by
  refine State.value_eq_of_bits _ fun i => ?_
  rw [Nat.zero_testBit, State.fillAll_W]
  by_cases hi : i < s.W
  · simp [s.fillAll_getBit _ hi]
  · simp [hi]

theorem State.fillAll_ones_value (s : State) : (s.fillAll 0xFF).value = 2 ^ s.W - 1 := by
  refine State.value_eq_of_bits _ fun i => ?_
  rw [Nat.testBit_two_pow_sub_one, State.fillAll_W]
  by_cases hi : i < s.W
  · have hbit : (0xFF : Byte).getLsbD (i % 8) = true :=
      BitVec.getLsbD_allOnes.trans (decide_eq_true (Nat.mod_lt i (by decide)))
    rw [s.fillAll_getBit _ hi, hbit, Bool.and_true]
  · simp [hi]

/-- `SET_ALL` fills every byte with 0x00 for the value 0 and with 0xFF for every other (R95). -/
theorem exec_setAll_ready {s : State} (v : Nat) (hr : s.Ready) :
    exec (.setAll v) s = .next ((s.fillAll (if v = 0 then 0x00 else 0xFF)).respond 0 0) := by
  rw [exec_setAll, runCommand_effect _ hr.1 hr.2 (by simp)]
  simp only [boolOf, decide_eq_true_eq, ite_not]

/-- Settles O16: the effect is every byte filled, whose logical bits are those of the fill byte. -/
theorem setAllFillsEveryByte : Obligations.SetAllFillsEveryByte := by
  refine fun s v hf => ⟨fun _ => decode_of_encode rfl, fun hatt => ?_, exec_detached _ hf⟩
  refine ⟨_, exec_setAll_ready v ⟨hf, hatt⟩, rfl, s.fillAll_byteAt _, ?_⟩
  rw [State.respond_value]
  split_ifs
  · exact s.fillAll_zeros_value
  · exact s.fillAll_ones_value

/-! ### GET after SET -/

/-- Putting a logical bit changes that bit of the integer and no other (R92). -/
theorem State.putBit_value_testBit (s : State) {i j : Nat} (v : Bool) (hi : i < s.W) (hj : j < s.W) :
    (s.putBit i v).value.testBit j = if j = i then v else s.value.testBit j := by
  have haddr : (s.addr j).1 = (s.addr i).1 ∧ (s.addr j).2 = (s.addr i).2 ↔ j = i :=
    ⟨fun h => s.addr_inj hj hi (Prod.ext_iff.mpr h), fun h => by simp [h]⟩
  rw [State.value_testBit_of_lt _ (by simpa using hj), State.putBit_addr, State.putBit_getLsbD,
    ← s.value_testBit_of_lt hj]
  simp only [haddr]

/-- Settles O17: the bits of the integer after one bit put, and SWAP of equal indices by its own statement. -/
theorem getAfterSetRespondsTheValue : Obligations.GetAfterSetRespondsTheValue := by
  intro s i v hr hi
  have hbit {j : Nat} (hj : j < s.W) : ((s.putBit i (boolOf v)).respond 0 0).value.testBit j =
      if j = i then boolOf v else s.value.testBit j := by
    rw [State.respond_value, s.putBit_value_testBit _ hi hj]
  refine ⟨⟨_, exec_set_of_lt v hr hi, ?_, fun j hj hne => (hbit hj).trans (if_neg hne)⟩, ?_⟩
  · rw [exec_get_of_lt (s := (s.putBit i (boolOf v)).respond 0 0) hr hi, hbit hi]
    simp [boolOf, State.respond]
  · obtain ⟨-, hswap, -⟩ := swapExchangesTwoBits s i i hr.1
    obtain ⟨u, hu, -, -, hsame⟩ := hswap hr.2 hi hi
    exact ⟨u, hu, hsame (.inl rfl)⟩

end Sys2Proof.Machine
end

section
/-!
PROOFS. Places moved by a count: the one pattern that both phases of the shift engine and the logical definition of the
shifts follow (R112, R113, R121, R123, R124), over bytes and over bits alike, and how two such moves compose.
-/

namespace Sys2Proof.Machine

/-- What a vacated place takes: under ring `pushed`, the content pushed off the far end, otherwise the fill `f`. -/
def refill {α : Type} (fill : Fill) (f pushed : α) : α :=
  match fill with
  | .zero => f
  | .one => f
  | .ring => pushed

theorem map_refill {α β : Type} (g : α → β) (fill : Fill) (f pushed : α) :
    g (refill fill f pushed) = refill fill (g f) (g pushed) := by
  cases fill <;> rfl

/-- Place `i` of the contents `B` of `n` places, moved by `p` places with the fill `f`. -/
def moved {α : Type} (dir : Direction) (fill : Fill) (n p : Nat) (f : α) (B : Nat → α) (i : Nat) : α :=
  match dir with
  | .left => if p ≤ i then B (i - p) else refill fill f (B (i + n - p))
  | .right => if i + p < n then B (i + p) else refill fill f (B (i + p - n))

section
variable {α : Type} {dir : Direction} {fill : Fill} {n p q i : Nat} {f : α} {B C : Nat → α}

theorem map_moved {β : Type} (g : α → β) :
    g (moved dir fill n p f B i) = moved dir fill n p (g f) (fun i => g (B i)) i := by
  cases dir <;> simp only [moved, apply_ite g, map_refill g]

theorem moved_zero (hi : i < n) : moved dir fill n 0 f B i = B i := by
  cases dir <;> simp [moved, hi]

/-- A move reads only contents inside the `n` places. -/
theorem moved_congr (hp : p ≤ n) (hi : i < n) (h : ∀ j < n, B j = C j) :
    moved dir fill n p f B i = moved dir fill n p f C i := by
  cases dir <;> simp only [moved] <;> split_ifs
  · exact h _ (by omega)
  · rw [h _ (by omega)]
  · exact h _ (by omega)
  · rw [h _ (by omega)]

/-- Two moves in one direction are one move by the sum of their counts. -/
theorem moved_moved (hpq : p + q ≤ n) (hi : i < n) :
    moved dir fill n p f (moved dir fill n q f B) i = moved dir fill n (p + q) f B i := by
  cases dir with
  | left =>
    simp only [moved]
    by_cases hp : p ≤ i
    · simp only [if_pos hp, Nat.le_sub_iff_add_le' hp, Nat.sub_sub, ← Nat.sub_add_comm hp]
    · rw [if_neg hp, if_neg (by omega : ¬ p + q ≤ i), if_pos (by omega : q ≤ i + n - p), Nat.sub_sub]
  | right =>
    simp only [moved]
    by_cases hp : i + p < n
    · rw [if_pos hp, Nat.add_assoc]
    · rw [if_neg hp, if_neg (by omega : ¬ i + (p + q) < n), if_pos (by omega : i + p - n + q < n)]
      congr 2
      omega

/-- Under ring a move right undoes a move left by the same count. -/
theorem moved_right_moved_left (hi : i < n) :
    moved .right .ring n p f (moved .left .ring n p f B) i = B i := by
  simp only [moved, refill]
  by_cases h : i + p < n
  · rw [if_pos h, if_pos (Nat.le_add_left p i), Nat.add_sub_cancel]
  · rw [if_neg h, if_neg (by omega), Nat.sub_add_cancel (by omega), Nat.add_sub_cancel]

end

/-- A position to the left of `i` on a ring of `n` places. -/
theorem add_sub_mod_eq_ite {n p i : Nat} (hp : p ≤ n) (hi : i < n) :
    (i + n - p) % n = if p ≤ i then i - p else (i + n - p) := by
  split_ifs with h
  · rw [Nat.sub_add_comm h, Nat.add_mod_right, Nat.mod_eq_of_lt (by omega)]
  · exact Nat.mod_eq_of_lt (by omega)

/-- A position to the right of `i` on a ring of `n` places. -/
theorem add_mod_eq_ite_of_lt {n p i : Nat} (hp : p ≤ n) (hi : i < n) :
    (i + p) % n = if i + p < n then i + p else i + p - n := by
  split_ifs with h
  · exact Nat.mod_eq_of_lt h
  · rw [Nat.mod_eq_sub_mod (by omega), Nat.mod_eq_of_lt (by omega)]

/-- The logical definition of the shifts moves bits (R112, R113). -/
theorem shiftedBit_eq_moved (dir : Direction) (fill : Fill) {W p : Nat} (V : Nat) {i : Nat} (hp : p ≤ W) (hi : i < W) :
    shiftedBit dir fill W p V i = moved dir fill W p (fillBit fill) V.testBit i := by
  have hright : i < W - p ↔ i + p < W := by omega
  cases dir <;> cases fill <;>
    simp only [shiftedBit, moved, refill, add_sub_mod_eq_ite hp hi, add_mod_eq_ite_of_lt hp hi, hright,
      apply_ite V.testBit]

/-- The whole-byte phase moves bytes (R121). -/
theorem wholeBytePhase_eq_moved (dir : Direction) (fill : Fill) {nb q : Nat} (L : Nat → Byte) {k : Nat} (hq : q ≤ nb)
    (hk : k < nb) : wholeBytePhase dir fill nb q L k = moved dir fill nb q (fillByte fill) L k := by
  cases dir <;> cases fill <;>
    simp only [wholeBytePhase, moved, refill, add_sub_mod_eq_ite hq hk, add_mod_eq_ite_of_lt hq hk, apply_ite L]

end Sys2Proof.Machine
end

section
/-!
PROOFS. The two phases of the shift engine, bit by bit: each moves the bits of the logical bytes, and both together move
them by the whole count (R120 to R124, R127).
-/

namespace Sys2Proof.Machine

/-- Bit `i` of a sequence of logical bytes (R15). -/
def bitOf (L : Nat → Byte) (i : Nat) : Bool := (L (i / 8)).getLsbD (i % 8)

theorem bitOf_logicalByte (s : State) : bitOf s.logicalByte = s.getBit := rfl

/-- Bit `j` of byte `k` of a sequence, whatever the form of its position. -/
theorem getLsbD_eq_bitOf (M : Nat → Byte) {k j i : Nat} (hj : j < 8) (h : i = 8 * k + j) :
    (M k).getLsbD j = bitOf M i := by
  have hdiv : i / 8 = k := by omega
  have hmod : i % 8 = j := by omega
  rw [bitOf, hdiv, hmod]

theorem refill_fillByte_getLsbD (fill : Fill) (x : Byte) {j : Nat} (hj : j < 8) :
    (refill fill (fillByte fill) x).getLsbD j = refill fill (fillBit fill) (x.getLsbD j) := by
  rw [map_refill (fun y : Byte => y.getLsbD j), fillByte_getLsbD fill hj]

/-- Bytes moved by `q` places are bits moved by `8 * q`. -/
theorem bitOf_moved (dir : Direction) (fill : Fill) {nb q i : Nat} (L : Nat → Byte) (hq : q ≤ nb) :
    bitOf (moved dir fill nb q (fillByte fill) L) i = moved dir fill (nb * 8) (8 * q) (fillBit fill) (bitOf L) i := by
  have hj : i % 8 < 8 := Nat.mod_lt i (by decide)
  cases dir with
  | left =>
    simp only [bitOf, moved]
    by_cases h : q ≤ i / 8
    · rw [if_pos h, if_pos (by omega)]
      exact getLsbD_eq_bitOf L hj (by omega)
    · rw [if_neg h, if_neg (by omega), refill_fillByte_getLsbD fill _ hj]
      exact congrArg _ (getLsbD_eq_bitOf L hj (by omega))
  | right =>
    simp only [bitOf, moved]
    by_cases h : i / 8 + q < nb
    · rw [if_pos h, if_pos (by omega)]
      exact getLsbD_eq_bitOf L hj (by omega)
    · rw [if_neg h, if_neg (by omega), refill_fillByte_getLsbD fill _ hj]
      exact congrArg _ (getLsbD_eq_bitOf L hj (by omega))

/-- The boundary byte is the fill byte or, under ring, the byte at the opposite end (R123, R124). -/
theorem boundaryByte_left (fill : Fill) (nb : Nat) (M : Nat → Byte) :
    boundaryByte .left fill nb M = refill fill (fillByte fill) (M (nb - 1)) := by
  cases fill <;> rfl

theorem boundaryByte_right (fill : Fill) (nb : Nat) (M : Nat → Byte) :
    boundaryByte .right fill nb M = refill fill (fillByte fill) (M 0) := by
  cases fill <;> rfl

/-- The byte a left-shifted window gives, as two shifted bytes (R123). -/
theorem window_left_eq_or (u l : Byte) {t : Nat} (ht : t < 8) :
    ((window u l <<< t) >>> 8).setWidth 8 = u <<< t ||| l >>> (8 - t) := by
  refine BitVec.eq_of_getLsbD_eq fun j hj => ?_
  rw [window_left_getLsbD u l ht hj, BitVec.getLsbD_or, BitVec.getLsbD_shiftLeft, BitVec.getLsbD_ushiftRight]
  by_cases h : t ≤ j
  · rw [if_pos h, BitVec.getLsbD_of_ge l (8 - t + j) (by omega)]
    simp [hj, Nat.not_lt.mpr h]
  · have hpos : 8 - t + j = 8 + j - t := by omega
    rw [if_neg h, hpos]
    simp [Nat.lt_of_not_le h]

/-- The byte a right-shifted window gives, as two shifted bytes (R124). -/
theorem window_right_eq_or (u l : Byte) {t : Nat} (ht : t < 8) :
    (window u l >>> t).setWidth 8 = l >>> t ||| u <<< (8 - t) := by
  refine BitVec.eq_of_getLsbD_eq fun j hj => ?_
  rw [window_right_getLsbD u l ht hj, BitVec.getLsbD_or, BitVec.getLsbD_shiftLeft, BitVec.getLsbD_ushiftRight,
    Nat.add_comm t j]
  by_cases h : j + t < 8
  · have hlow : j < 8 - t := by omega
    rw [if_pos h]
    simp [hlow]
  · have hhigh : ¬ j < 8 - t := by omega
    have hpos : j - (8 - t) = j + t - 8 := by omega
    rw [if_neg h, hpos, BitVec.getLsbD_of_ge l (j + t) (by omega)]
    simp [hj, hhigh]

/-- A left pass of the sub-bit phase, byte by byte (R123). -/
theorem subBitPhase_left (fill : Fill) (nb : Nat) {t : Nat} (M : Nat → Byte) (k : Nat) (ht : t < 8) :
    subBitPhase .left fill nb t M k =
      M k <<< t ||| (if 0 < k then M (k - 1) else refill fill (fillByte fill) (M (nb - 1))) >>> (8 - t) := by
  rw [subBitPhase, window_left_eq_or _ _ ht, boundaryByte_left]

/-- A right pass of the sub-bit phase, byte by byte (R124). -/
theorem subBitPhase_right (fill : Fill) (nb : Nat) {t : Nat} (M : Nat → Byte) (k : Nat) (ht : t < 8) :
    subBitPhase .right fill nb t M k =
      M k >>> t ||| (if k < nb - 1 then M (k + 1) else refill fill (fillByte fill) (M 0)) <<< (8 - t) := by
  rw [subBitPhase, window_right_eq_or _ _ ht, boundaryByte_right]

/-- The sub-bit phase moves bits (R123, R124). -/
theorem bitOf_subBitPhase (dir : Direction) (fill : Fill) {nb t i : Nat} (M : Nat → Byte) (ht : t < 8)
    (hi : i < nb * 8) :
    bitOf (subBitPhase dir fill nb t M) i = moved dir fill (nb * 8) t (fillBit fill) (bitOf M) i := by
  have hj : i % 8 < 8 := Nat.mod_lt i (by decide)
  cases dir with
  | left =>
    simp only [bitOf, subBitPhase, moved, window_left_getLsbD _ _ ht hj, boundaryByte_left]
    by_cases hin : t ≤ i % 8
    · rw [if_pos hin, if_pos (by omega)]
      exact getLsbD_eq_bitOf M (by omega) (by omega)
    · rw [if_neg hin]
      by_cases hk : 0 < i / 8
      · rw [if_pos hk, if_pos (by omega)]
        exact getLsbD_eq_bitOf M (by omega) (by omega)
      · rw [if_neg hk, if_neg (by omega), refill_fillByte_getLsbD fill _ (by omega)]
        exact congrArg _ (getLsbD_eq_bitOf M (by omega) (by omega))
  | right =>
    simp only [bitOf, subBitPhase, moved, window_right_getLsbD _ _ ht hj, boundaryByte_right]
    by_cases hin : i % 8 + t < 8
    · rw [if_pos hin, if_pos (by omega)]
      exact getLsbD_eq_bitOf M (by omega) (by omega)
    · rw [if_neg hin]
      by_cases hk : i / 8 < nb - 1
      · rw [if_pos hk, if_pos (by omega)]
        exact getLsbD_eq_bitOf M (by omega) (by omega)
      · rw [if_neg hk, if_neg (by omega), refill_fillByte_getLsbD fill _ (by omega)]
        exact congrArg _ (getLsbD_eq_bitOf M (by omega) (by omega))

/-- The bytes after the whole-byte phase of a shift by `p` bits, which is skipped for less than a byte (R120). -/
def byteMoved (dir : Direction) (fill : Fill) (nb p : Nat) (L : Nat → Byte) : Nat → Byte :=
  if p / 8 = 0 then L else wholeBytePhase dir fill nb (p / 8) L

theorem shiftedByte_eq (dir : Direction) (fill : Fill) (nb p : Nat) (L : Nat → Byte) (k : Nat) :
    shiftedByte dir fill nb p L k =
      if p % 8 = 0 then byteMoved dir fill nb p L k
      else subBitPhase dir fill nb (p % 8) (byteMoved dir fill nb p L) k := rfl

/-- The whole-byte phase of a shift by `p` bits moves bytes, by none where it is skipped (R120, R121). -/
theorem byteMoved_eq_moved (dir : Direction) (fill : Fill) {nb p : Nat} (L : Nat → Byte) {k : Nat} (hp : p / 8 ≤ nb)
    (hk : k < nb) : byteMoved dir fill nb p L k = moved dir fill nb (p / 8) (fillByte fill) L k := by
  unfold byteMoved
  split_ifs with hq
  · rw [hq, moved_zero hk]
  · exact wholeBytePhase_eq_moved dir fill L hp hk

/-- Both phases together move the bits by the whole count (R127). -/
theorem bitOf_shiftedByte (dir : Direction) (fill : Fill) {nb p i : Nat} (L : Nat → Byte) (hp : p ≤ nb * 8)
    (hi : i < nb * 8) :
    bitOf (shiftedByte dir fill nb p L) i = moved dir fill (nb * 8) p (fillBit fill) (bitOf L) i := by
  have hq : p / 8 ≤ nb := by omega
  have hbytes {j : Nat} (hj : j < nb * 8) : bitOf (byteMoved dir fill nb p L) j =
      moved dir fill (nb * 8) (8 * (p / 8)) (fillBit fill) (bitOf L) j := by
    rw [← bitOf_moved dir fill L hq, bitOf, byteMoved_eq_moved dir fill L hq (by omega), bitOf]
  by_cases ht : p % 8 = 0
  · have hcount : 8 * (p / 8) = p := by omega
    simp only [bitOf, shiftedByte_eq, if_pos ht]
    rw [← bitOf, hbytes hi, hcount]
  · have hsum : p % 8 + 8 * (p / 8) = p := Nat.mod_add_div p 8
    calc bitOf (shiftedByte dir fill nb p L) i
        = bitOf (subBitPhase dir fill nb (p % 8) (byteMoved dir fill nb p L)) i := by
          simp only [bitOf, shiftedByte_eq, if_neg ht]
      _ = moved dir fill (nb * 8) (p % 8) (fillBit fill) (bitOf (byteMoved dir fill nb p L)) i :=
          bitOf_subBitPhase dir fill _ (Nat.mod_lt p (by decide)) hi
      _ = moved dir fill (nb * 8) (p % 8) (fillBit fill)
            (moved dir fill (nb * 8) (8 * (p / 8)) (fillBit fill) (bitOf L)) i :=
          moved_congr (by omega) hi fun _ => hbytes
      _ = moved dir fill (nb * 8) p (fillBit fill) (bitOf L) i := by rw [moved_moved (hsum.trans_le hp) hi, hsum]

end Sys2Proof.Machine
end

section
/-!
PROOFS. The shift commands on a ready block: the integer an engine run leaves at every count (R110 to R113, R142,
R143), and the statements of the shift engine.
-/

namespace Sys2Proof.Machine

/-! ### The logical definition as an integer -/

/-- The top `p` of `W` bits, the fill of a right shift under one (R113). -/
theorem testBit_two_pow_sub_two_pow {W p : Nat} (hp : p ≤ W) (i : Nat) :
    (2 ^ W - 2 ^ (W - p)).testBit i = decide (i < W ∧ W ≤ i + p) := by
  have hshift : 2 ^ W - 2 ^ (W - p) = (2 ^ p - 1) <<< (W - p) := by
    rw [Nat.shiftLeft_eq, Nat.sub_mul, one_mul, ← Nat.pow_add, Nat.add_sub_cancel' hp]
  rw [hshift, Nat.testBit_shiftLeft, Nat.testBit_two_pow_sub_one, ← Bool.decide_and]
  exact decide_eq_decide.mpr (by omega)

/-- The integers of the logical definition have the bits that it moves (R112, R113). -/
theorem shiftedValue_testBit (dir : Direction) (fill : Fill) {W p V : Nat} (hp : p ≤ W) (hV : V < 2 ^ W) (i : Nat) :
    (shiftedValue dir fill W p V).testBit i =
      (decide (i < W) && moved dir fill W p (fillBit fill) V.testBit i) := by
  have hhigh {j : Nat} (hj : W ≤ j) : V.testBit j = false :=
    Nat.testBit_lt_two_pow (hV.trans_le (Nat.pow_le_pow_right (by decide) hj))
  cases dir with
  | left =>
    have hpushed : W - p + i = i + W - p := by omega
    cases fill with
    | zero => by_cases h : p ≤ i <;> simp [shiftedValue, moved, refill, fillBit, h]
    | one =>
      by_cases h : p ≤ i
      · simp [shiftedValue, moved, h]
      · have hlow : i < p := Nat.lt_of_not_le h
        simp [shiftedValue, moved, refill, fillBit, h, hlow, hlow.trans_le hp]
    | ring =>
      by_cases h : p ≤ i
      · simp [shiftedValue, moved, h, hpushed, hhigh (by omega : W ≤ i + W - p)]
      · simp [shiftedValue, moved, refill, h, hpushed]
  | right =>
    by_cases h : i + p < W
    · have hi : i < W := by omega
      have hlow : ¬ W - p ≤ i := by omega
      cases fill <;>
        simp [shiftedValue, moved, h, hi, hlow, Nat.add_comm p i, testBit_two_pow_sub_two_pow hp]
    · have hout : V.testBit (i + p) = false := hhigh (by omega)
      have hle : W ≤ i + p := by omega
      have hpushed : i - (W - p) = i + p - W := by omega
      cases fill <;>
        simp [shiftedValue, moved, refill, fillBit, h, hle, hpushed, hout, Nat.add_comm p i,
          testBit_two_pow_sub_two_pow hp]

/-! ### What an engine run leaves -/

/-- Logical byte `k` is the bits of the integer from `8 * k` up (R15, R110). -/
theorem State.logicalByte_toNat (s : State) {k : Nat} (hk : k < s.par.nb) :
    (s.logicalByte k).toNat = s.value / 2 ^ (8 * k) % 2 ^ 8 := by
  refine Nat.eq_of_testBit_eq fun j => ?_
  rw [Nat.testBit_mod_two_pow, Nat.testBit_div_two_pow, Nat.add_comm j]
  by_cases hj : j < 8
  · rw [decide_eq_true hj, Bool.true_and]
    exact s.logicalByte_getLsbD_eq_value_testBit hk hj
  · rw [decide_eq_false hj, Bool.false_and]
    exact BitVec.getLsbD_of_ge _ j (Nat.le_of_not_lt hj)

/-- Storing both phases by a count below `W` leaves the shifted integer (R110, R112, R113). -/
theorem State.storeLogical_shiftedByte_value (s : State) (dir : Direction) (fill : Fill) {p : Nat} (hp : p ≤ s.W) :
    (s.storeLogical (shiftedByte dir fill s.par.nb p s.logicalByte)).value = shiftedValue dir fill s.W p s.value := by
  refine State.value_eq_of_bits _ fun i => ?_
  rw [shiftedValue_testBit dir fill hp s.value_lt_two_pow_W, State.storeLogical_W]
  by_cases hi : i < s.W
  · have hget : (s.storeLogical (shiftedByte dir fill s.par.nb p s.logicalByte)).getBit i =
        bitOf (shiftedByte dir fill s.par.nb p s.logicalByte) i :=
      congrArg (fun x : Byte => x.getLsbD (i % 8)) (s.storeLogical_logicalByte _ (s.div_lt_nb hi))
    rw [hget, bitOf_shiftedByte dir fill _ hp hi, bitOf_logicalByte]
    exact congrArg _ (moved_congr hp hi fun j hj => (s.getBit_of_lt hj).symm)
  · simp [hi]

/-- The fill byte in every place is the fill bit in every place (R111). -/
theorem State.fillAll_fillByte_value (s : State) (fill : Fill) :
    (s.fillAll (fillByte fill)).value = if fillBit fill then 2 ^ s.W - 1 else 0 := by
  cases fill with
  | zero => exact s.fillAll_zeros_value
  | one => exact s.fillAll_ones_value
  | ring => exact s.fillAll_zeros_value

@[simp] theorem engine_par (dir : Direction) (fill : Fill) (p : Nat) (s : State) : (engine dir fill p s).par = s.par :=
  (engine_completed dir fill p s).par

@[simp] theorem engine_W (dir : Direction) (fill : Fill) (p : Nat) (s : State) : (engine dir fill p s).W = s.W :=
  congrArg (·.nb * 8) (engine_par dir fill p s)

/-- `V'` of a shift command with the count `p`, before normalization (R110 to R113). -/
def shiftResult (dir : Direction) (fill : Fill) (W p V : Nat) : Nat :=
  match normalizePositions W p fill with
  | .noop => V
  | .saturate => if fillBit fill then 2 ^ W - 1 else 0
  | .count n => shiftedValue dir fill W n V

/-- With no bits every result is 0. -/
theorem shiftResult_zero_width (dir : Direction) (fill : Fill) (p : Nat) : shiftResult dir fill 0 p 0 = 0 := by
  by_cases hp : p = 0
  · subst hp; rfl
  · cases dir <;> cases fill <;> simp [shiftResult, normalizePositions, shiftedValue, fillBit, hp, Nat.mod_one]

theorem State.value_eq_zero_of_W_eq_zero {s : State} (h : s.W = 0) : s.value = 0 := by
  have hlt := s.value_lt_two_pow_W
  rw [h] at hlt
  omega

theorem engine_value (dir : Direction) (fill : Fill) (p : Nat) (s : State) :
    (engine dir fill p s).value = shiftResult dir fill s.W p s.value := by
  obtain hW | hW := Nat.eq_zero_or_pos s.W
  · rw [State.value_eq_zero_of_W_eq_zero ((engine_W dir fill p s).trans hW), State.value_eq_zero_of_W_eq_zero hW, hW,
      shiftResult_zero_width]
  · obtain ⟨hn, he⟩ | ⟨hn, he⟩ | ⟨n, hn, he⟩ := engine_cases dir fill p s <;>
      simp only [he, State.respond_value, shiftResult, hn]
    · exact s.fillAll_fillByte_value fill
    · exact s.storeLogical_shiftedByte_value dir fill (normalizePositions_count hW hn).2.le

/-- An engine run completes with the response `(OK, 0, 0)` and changes nothing but the storage (R90). -/
theorem engine_completedAs (dir : Direction) (fill : Fill) (p : Nat) (s : State) :
    s.CompletedAs (engine dir fill p s) 0 0 := by
  obtain ⟨-, he⟩ | ⟨-, he⟩ | ⟨n, -, he⟩ := engine_cases dir fill p s <;> rw [he] <;> rfl

/-- The block is ready for another command. -/
theorem engine_ready (dir : Direction) (fill : Fill) (p : Nat) {s : State} (h : s.Ready) :
    (engine dir fill p s).Ready := by
  have hdone := engine_completed dir fill p s
  rwa [State.Ready, State.faulted, hdone.status, hdone.par]

/-- No engine run changes a byte outside the storage. -/
theorem engine_byteAt_of_ge (dir : Direction) (fill : Fill) (p : Nat) {s : State} {b : Nat} (hb : s.par.nb ≤ b) :
    (engine dir fill p s).byteAt b = s.byteAt b := by
  obtain ⟨-, he⟩ | ⟨-, he⟩ | ⟨n, -, he⟩ := engine_cases dir fill p s <;> rw [he, State.respond_byteAt]
  · rw [State.fillAll_byteAt, if_neg (Nat.not_lt.mpr hb)]
  · exact s.storeLogical_byteAt_of_ge _ hb

/-- A shift by a normalized count leaves the shifted integer (R112, R113). -/
theorem engine_value_of_lt (dir : Direction) (fill : Fill) {p : Nat} {s : State} (hp : 0 < p) (hlt : p < s.W) :
    (engine dir fill p s).value = shiftedValue dir fill s.W p s.value := by
  rw [engine_value, shiftResult, normalizePositions_of_lt fill hp hlt]

/-! ### Normalization -/

theorem normalizePositions_zero (w : Nat) (fill : Fill) : normalizePositions w 0 fill = .noop := rfl

/-- A rotation by a multiple of the width is no operation (R111). -/
theorem normalizePositions_ring_of_mod_eq_zero {w p : Nat} (h : p % w = 0) :
    normalizePositions w p .ring = .noop := by
  simp [normalizePositions, h]

/-- A rotation count is reduced to its residue (R111). -/
theorem normalizePositions_ring_mod (w p : Nat) :
    normalizePositions w (p % w) .ring = normalizePositions w p .ring := by
  by_cases h : p % w = 0
  · rw [h, normalizePositions_zero, normalizePositions_ring_of_mod_eq_zero h]
  · have hp : p ≠ 0 := fun hp => h (by rw [hp, Nat.zero_mod])
    simp [normalizePositions, h, hp]

/-- Under zero and one a count of the width or more saturates (R111). -/
theorem normalizePositions_saturate {w p : Nat} {fill : Fill} (hf : fill ≠ .ring) (hp : 0 < p) (h : w ≤ p) :
    normalizePositions w p fill = .saturate := by
  cases fill with
  | zero => simp [normalizePositions, hp.ne', h]
  | one => simp [normalizePositions, hp.ne', h]
  | ring => exact absurd rfl hf

theorem engine_of_noop {dir : Direction} {fill : Fill} {p : Nat} {s : State}
    (h : normalizePositions s.W p fill = .noop) : engine dir fill p s = s.respond 0 0 := by
  rw [engine, h]

theorem engine_of_saturate {dir : Direction} {fill : Fill} {p : Nat} {s : State}
    (h : normalizePositions s.W p fill = .saturate) :
    engine dir fill p s = (s.fillAll (fillByte fill)).respond 0 0 := by
  rw [engine, h]

theorem engine_ring_mod (dir : Direction) (p : Nat) (s : State) :
    engine dir .ring (p % s.W) s = engine dir .ring p s := by
  rw [engine, engine, normalizePositions_ring_mod]

/-- Settles O18: normalization decides which of the engine's outcomes a count has. -/
theorem normalizationOfPositions : Obligations.NormalizationOfPositions := by
  intro s dir p hr hnb
  have hexec (fill : Fill) (n : Nat) := exec_shiftCommand_ready dir fill n hr
  have hset (v : Nat) := exec_setAll_ready v hr
  refine ⟨fun fill => ?_, fun h => ?_, ?_, fun hle => ?_, fun fill hp hlt => ?_⟩
  · rw [hexec, engine_of_noop (normalizePositions_zero s.W fill)]
  · rw [hexec, engine_of_noop (normalizePositions_ring_of_mod_eq_zero h)]
  · rw [hexec, hexec, engine_ring_mod]
  · have hp : 0 < p := by
      unfold State.W at hle
      omega
    have hzero := engine_of_saturate (dir := dir) (normalizePositions_saturate (fill := .zero) (by decide) hp hle)
    have hone := engine_of_saturate (dir := dir) (normalizePositions_saturate (fill := .one) (by decide) hp hle)
    rw [hexec, hexec, hset, hset, hzero, hone]
    refine ⟨rfl, rfl, _, _, rfl, rfl, fun b hb => ?_⟩
    rw [State.respond_byteAt, State.respond_byteAt, State.fillAll_byteAt, State.fillAll_byteAt, if_pos hb, if_pos hb]
    exact ⟨rfl, rfl⟩
  · exact ⟨_, hexec fill p, engine_value_of_lt dir fill hp hlt⟩

/-! ### The two shifts, bit by bit -/

/-- A shift command with a normalized count, in either direction (R112, R113). -/
theorem exec_shiftCommand_of_lt {s : State} (dir : Direction) (fill : Fill) {p : Nat} (hr : s.Ready) (hp : 0 < p)
    (hlt : p < s.W) :
    ∃ t, exec (shiftCommand dir fill p) s = .next t ∧ s.CompletedAs t 0 0 ∧
      (∀ i, i < s.W → t.value.testBit i = shiftedBit dir fill s.W p s.value i) ∧
      t.value = shiftedValue dir fill s.W p s.value := by
  have hvalue := engine_value_of_lt dir fill hp hlt
  refine ⟨_, exec_shiftCommand_ready dir fill p hr, engine_completedAs dir fill p s, fun i hi => ?_, hvalue⟩
  rw [hvalue, shiftedValue_testBit dir fill hlt.le s.value_lt_two_pow_W, decide_eq_true hi, Bool.true_and,
    shiftedBit_eq_moved dir fill _ hlt.le hi]

/-- Settles O19: the left case of the shift by a normalized count. -/
theorem shiftLeftMovesEveryBit : Obligations.ShiftLeftMovesEveryBit :=
  fun _ fill _ => exec_shiftCommand_of_lt .left fill

/-- Settles O20: the right case of the shift by a normalized count. -/
theorem shiftRightMovesEveryBit : Obligations.ShiftRightMovesEveryBit :=
  fun _ fill _ => exec_shiftCommand_of_lt .right fill

/-! ### The two phases -/

/-- Logical byte `k` after a shift by a normalized count is that of both phases (R110, R120). -/
theorem engine_logicalByte_of_lt (dir : Direction) (fill : Fill) {p k : Nat} {s : State} (hp : 0 < p) (hlt : p < s.W)
    (hk : k < s.par.nb) :
    (engine dir fill p s).logicalByte k = shiftedByte dir fill s.par.nb p s.logicalByte k := by
  rw [engine, normalizePositions_of_lt fill hp hlt]
  exact s.storeLogical_logicalByte _ hk

/-- Settles O21: the bytes after the whole-byte phase are the moved bytes, and the sub-bit phase reads only them. -/
theorem twoPhaseAlgorithm : Obligations.TwoPhaseAlgorithm := by
  intro s dir fill p hr hp hlt
  have hq : p / 8 ≤ s.par.nb := (s.div_lt_nb hlt).le
  have ht : p % 8 < 8 := Nat.mod_lt p (by decide)
  refine ⟨_, exec_shiftCommand_ready dir fill p hr, byteMoved dir fill s.par.nb p s.logicalByte, fun k hk => ?_,
    fun k hk => ?_⟩
  · rw [byteMoved_eq_moved dir fill _ hq hk]
    cases dir <;> cases fill <;> rfl
  · have hbyte := engine_logicalByte_of_lt dir fill hp hlt hk
    rw [State.logicalByte, shiftedByte_eq] at hbyte
    rw [hbyte]
    cases dir with
    | left => rw [subBitPhase_left fill _ _ k ht]; cases fill <;> rfl
    | right => rw [subBitPhase_right fill _ _ k ht]; cases fill <;> rfl

/-! ### The laws -/

/-- Settles O25: the result is a function of the integer, the width and the command. -/
theorem shiftsDoNotDependOnByteOrder : Obligations.ShiftsDoNotDependOnByteOrder := by
  intro s u dir fill p hs hu hnb hvalue
  refine ⟨_, _, exec_shiftCommand_ready dir fill p hs, exec_shiftCommand_ready dir fill p hu, ?_, fun k hk => ?_⟩
  · have hWeq : s.W = u.W := congrArg (· * 8) hnb
    rw [engine_value, engine_value, hWeq, hvalue]
  · exact State.logicalByte_toNat _ (by rwa [engine_par])

/-- `SHL.Z p` multiplies by `2^p` modulo `2^W` (R143). -/
theorem engine_left_zero_value (p : Nat) (s : State) :
    (engine .left .zero p s).value = s.value * 2 ^ p % 2 ^ s.W := by
  rw [engine_value]
  obtain rfl | hp := Nat.eq_zero_or_pos p
  · rw [pow_zero, mul_one, Nat.mod_eq_of_lt s.value_lt_two_pow_W]
    rfl
  · obtain hlt | hle := Nat.lt_or_ge p s.W
    · rw [shiftResult, normalizePositions_of_lt .zero hp hlt]
      exact congrArg (· % 2 ^ s.W) (Nat.shiftLeft_eq s.value p)
    · rw [shiftResult, normalizePositions_saturate (by decide) hp hle,
        Nat.mod_eq_zero_of_dvd (Dvd.dvd.mul_left (Nat.pow_dvd_pow 2 hle) s.value)]
      rfl

/-- `SHR.Z p` divides by `2^p` (R143). -/
theorem engine_right_zero_value (p : Nat) (s : State) : (engine .right .zero p s).value = s.value / 2 ^ p := by
  rw [engine_value]
  obtain rfl | hp := Nat.eq_zero_or_pos p
  · rw [pow_zero, Nat.div_one]
    rfl
  · obtain hlt | hle := Nat.lt_or_ge p s.W
    · rw [shiftResult, normalizePositions_of_lt .zero hp hlt]
      exact Nat.shiftRight_eq_div_pow s.value p
    · have hV : s.value < 2 ^ p := s.value_lt_two_pow_W.trans_le (Nat.pow_le_pow_right (by decide) hle)
      rw [shiftResult, normalizePositions_saturate (by decide) hp hle, Nat.div_eq_of_lt hV]
      rfl

/-- Settles O26: the shifts by zero fill are a multiplication and a division of the integer, which the other undoes but
for the bits lost. -/
theorem shiftRoundTrip : Obligations.ShiftRoundTrip := by
  intro s p hr
  have hV := s.value_lt_two_pow_W
  have hu : (engine .right .zero p (engine .left .zero p s)).value = s.value * 2 ^ p % 2 ^ s.W / 2 ^ p := by
    rw [engine_right_zero_value, engine_left_zero_value]
  have hw : (engine .left .zero p (engine .right .zero p s)).value = s.value / 2 ^ p * 2 ^ p := by
    rw [engine_left_zero_value, engine_right_zero_value, engine_W]
    exact Nat.mod_eq_of_lt ((Nat.div_mul_le_self _ _).trans_lt hV)
  refine ⟨_, _, _, _, exec_shiftCommand_ready .left .zero p hr,
    exec_shiftCommand_ready .right .zero p (engine_ready _ _ _ hr), exec_shiftCommand_ready .right .zero p hr,
    exec_shiftCommand_ready .left .zero p (engine_ready _ _ _ hr), fun hlt => ⟨?_, hw⟩, fun hle => ⟨?_, ?_⟩⟩
  · have hpow : 2 ^ s.W = 2 ^ (s.W - p) * 2 ^ p := by rw [← Nat.pow_add, Nat.sub_add_cancel hlt.le]
    rw [hu, hpow, Nat.mul_mod_mul_right, Nat.mul_div_cancel _ (Nat.two_pow_pos p)]
  · rw [hu, Nat.mod_eq_zero_of_dvd (Dvd.dvd.mul_left (Nat.pow_dvd_pow 2 hle) s.value), Nat.zero_div]
  · rw [hw, Nat.div_eq_of_lt (hV.trans_le (Nat.pow_le_pow_right (by decide) hle)), Nat.zero_mul]

/-- A rotation moves every bit by the count's residue, at every count (R111, R112, R113). -/
theorem engine_ring_value_testBit (dir : Direction) (p : Nat) {s : State} {i : Nat} (hi : i < s.W) :
    (engine dir .ring p s).value.testBit i =
      moved dir .ring s.W (p % s.W) (fillBit .ring) s.value.testBit i := by
  have hlt : p % s.W < s.W := Nat.mod_lt p (Nat.zero_lt_of_lt hi)
  rw [← engine_ring_mod]
  obtain h0 | hpos := Nat.eq_zero_or_pos (p % s.W)
  · rw [h0, moved_zero hi, engine_of_noop (normalizePositions_zero _ _), State.respond_value]
  · rw [engine_value_of_lt dir .ring hpos hlt, shiftedValue_testBit dir .ring hlt.le s.value_lt_two_pow_W,
      decide_eq_true hi, Bool.true_and]

/-- Two blocks with the same parameters and the same logical bits hold the same bytes (R82). -/
theorem State.byteAt_eq_of_value_testBit {s t : State} (hpar : t.par = s.par)
    (h : ∀ i, i < s.W → t.value.testBit i = s.value.testBit i) {b : Nat} (hb : b < s.par.nb) :
    t.byteAt b = s.byteAt b := by
  have hphys : t.phys b = s.phys b := by rw [State.phys, State.phys, hpar]
  have hlt : s.phys b < s.par.nb := s.phys_lt hb
  refine BitVec.eq_of_getLsbD_eq fun j hj => ?_
  rw [t.byteAt_getLsbD_eq_value_testBit (hpar ▸ hb) hj, s.byteAt_getLsbD_eq_value_testBit hb hj, hphys,
    h _ (by unfold State.W; omega)]

/-- Rotating left and then right by one count changes no byte (R141). -/
theorem engine_right_engine_left_ring_byteAt (p : Nat) (s : State) (b : Nat) :
    (engine .right .ring p (engine .left .ring p s)).byteAt b = s.byteAt b := by
  have hpar := engine_par .left .ring p s
  have hW := engine_W .left .ring p s
  obtain hb | hb := Nat.lt_or_ge b s.par.nb
  · refine State.byteAt_eq_of_value_testBit ((engine_par ..).trans hpar) (fun i hi => ?_) hb
    have hlt : p % s.W < s.W := Nat.mod_lt p (Nat.zero_lt_of_lt hi)
    rw [engine_ring_value_testBit .right p (hW ▸ hi), hW,
      moved_congr hlt.le hi fun j hj => engine_ring_value_testBit .left p hj, moved_right_moved_left hi]
  · rw [engine_byteAt_of_ge _ _ _ (by rwa [hpar]), engine_byteAt_of_ge _ _ _ hb]

/-- Settles O27: a rotation moves every bit around the ring, and the width is a multiple of itself. -/
theorem rotateInverse : Obligations.RotateInverse := by
  refine fun s p hr => ⟨⟨_, _, exec_shiftCommand_ready .left .ring p hr,
    exec_shiftCommand_ready .right .ring p (engine_ready _ _ _ hr), engine_right_engine_left_ring_byteAt p s⟩,
    s.respond 0 0, ?_, s.respond_byteAt 0 0⟩
  have hfull : engine .left .ring s.W s = s.respond 0 0 :=
    engine_of_noop (normalizePositions_ring_of_mod_eq_zero (Nat.mod_self s.W))
  exact (exec_shiftCommand_ready .left .ring s.W hr).trans (congrArg _ hfull)

end Sys2Proof.Machine
end

section
/-!
PROOFS. Faults: the STATUS bits of a fault entry (R26, R152), what a command on the interface can do, the halted block
(R153), and which fault a command raises (R154, R156, R158, R159).
-/

namespace Sys2Proof.Machine

/-! ### Fault entry -/

/-- The fields of STATUS are bit 0 and bits 7:4 (R26). -/
theorem statusFields_getLsbD (j : Nat) : statusFields.getLsbD j = decide (j = 0 ∨ 4 ≤ j ∧ j < 8) := by
  by_cases hj : j < 8
  · interval_cases j <;> rfl
  · have hout : ¬ (j = 0 ∨ 4 ≤ j ∧ j < 8) := by omega
    rw [decide_eq_false hout]
    exact Nat.testBit_lt_two_pow ((by decide : statusFields.toNat < 2 ^ 8).trans_le
      (Nat.pow_le_pow_right (by decide) (Nat.le_of_not_lt hj)))

/-- The fields a fault entry writes: FAULTED in bit 0, and the code in bits 7:4 (R152). -/
theorem faultFields_testBit (code j : Nat) :
    (1 + 16 * (code % 16)).testBit j = (decide (j = 0) || (decide (4 ≤ j ∧ j < 8) && code.testBit (j - 4))) := by
  rw [Nat.add_comm, Nat.testBit_two_pow_mul_add (i := 4) _ (by decide : 1 < 2 ^ 4),
    Nat.testBit_mod_two_pow (j := 4)]
  by_cases hj : j < 4
  · interval_cases j <;> rfl
  · have hne : j ≠ 0 := by omega
    have hfield : j - 4 < 4 ↔ 4 ≤ j ∧ j < 8 := by omega
    rw [if_neg hj, decide_eq_false hne, Bool.false_or, decide_eq_decide.mpr hfield]

/-- STATUS after a fault entry, bit by bit: FAULTED, the code in bits 7:4, and every other bit as it was (R152). -/
theorem statusWithFault_getLsbD (status : BitVec 32) (code j : Nat) :
    (statusWithFault status code).getLsbD j =
      if j = 0 then true else if 4 ≤ j ∧ j < 8 then code.testBit (j - 4) else status.getLsbD j := by
  simp only [statusWithFault, BitVec.getLsbD_or, BitVec.getLsbD_and, BitVec.getLsbD_not, BitVec.getLsbD_ofNat,
    statusFields_getLsbD, faultFields_testBit]
  by_cases hj : j = 0
  · simp [hj]
  · by_cases hcode : 4 ≤ j ∧ j < 8
    · simp [hj, hcode, (by omega : j < 32)]
    · simpa [hj, hcode] using BitVec.lt_of_getLsbD

@[simp] theorem State.enterFault_faulted (s : State) (c : Cause) : (s.enterFault c).faulted = true := by
  rw [State.faulted, State.enterFault_status, statusWithFault_getLsbD, if_pos rfl]

/-- FAULT_CODE is bits 7:4 of STATUS (R26). -/
theorem State.faultCode_testBit (s : State) (j : Nat) :
    s.faultCode.testBit j = (decide (j < 4) && s.status.getLsbD (j + 4)) := by
  rw [State.faultCode, Nat.testBit_mod_two_pow (j := 4), Nat.testBit_div_two_pow (n := 4), BitVec.testBit_toNat]

/-- Every code fits the four bits of FAULT_CODE (R26, R151). -/
theorem faultCodeOf_lt (c : Cause) : faultCodeOf c < 2 ^ 4 := by
  cases c <;> simp [faultCodeOf]

@[simp] theorem State.enterFault_faultCode (s : State) (c : Cause) :
    (s.enterFault c).faultCode = faultCodeOf c := by
  refine Nat.eq_of_testBit_eq fun j => ?_
  rw [State.faultCode_testBit, State.enterFault_status, statusWithFault_getLsbD, if_neg (Nat.succ_ne_zero _),
    Nat.add_sub_cancel]
  by_cases hj : j < 4
  · rw [decide_eq_true hj, Bool.true_and, if_pos (by omega)]
  · rw [decide_eq_false hj, Bool.false_and, Nat.testBit_lt_two_pow]
    exact (faultCodeOf_lt c).trans_le (Nat.pow_le_pow_right (by decide) (Nat.le_of_not_lt hj))

/-- A fault entry leaves the reserved bits of STATUS as they were (R152). -/
theorem State.enterFault_status_getLsbD_of_reserved (s : State) (c : Cause) {j : Nat} (h0 : j ≠ 0)
    (hj : j < 4 ∨ 8 ≤ j) : (s.enterFault c).status.getLsbD j = s.status.getLsbD j := by
  rw [State.enterFault_status, statusWithFault_getLsbD, if_neg h0, if_neg (by omega)]

/-- Settles O29: each row of the fault table is its cause's code and info, and only the fourth cause draws storage. -/
theorem faultEntry : Obligations.FaultEntry := by
  refine fun s w i => ⟨fun c code info hrow => ?_, fun c hc => ?_⟩
  · obtain ⟨rfl, rfl⟩ : code = faultCodeOf c ∧ info = faultInfoOf s.par.argWidth c := by
      simp only [List.mem_cons, Prod.mk.injEq, List.not_mem_nil, or_false] at hrow
      obtain ⟨rfl, rfl, rfl⟩ | ⟨rfl, rfl, rfl⟩ | ⟨rfl, rfl, rfl⟩ | ⟨rfl, rfl, rfl⟩ := hrow <;> exact ⟨rfl, rfl⟩
    exact ⟨s.enterFault_faulted c, s.enterFault_faultCode c, s.enterFault_faultInfo c, s.enterFault_answer c,
      fun _ => s.enterFault_status_getLsbD_of_reserved c, s.enterFault_par c, s.enterFault_pending c⟩
  · have hprecise : ∀ k, c ≠ .unspecified k := by
      rintro k rfl
      simp at hc
    exact ⟨s.enterFault_storage_of_precise c hprecise, s.enterFault_draws_of_precise c hprecise⟩

/-! ### What a command on the interface can do -/

/-- The next states of a command, legal or not: where the block is halted nothing changed and no answer, otherwise a
fault entry or the command's own effect (R90, R152, R153). -/
inductive CommandOutcome (s t : State) : Prop where
  | halted (hf : s.faulted = true) (ht : t = s.noAnswer)
  | fault (hf : s.faulted = false) (cause : Cause) (ht : t = s.enterFault cause)
  | completed (hf : s.faulted = false) (ht : Completed s t)

theorem exec_outcome {i : Instr} {s t : State} (h : exec i s = .next t) : CommandOutcome s t := by
  obtain ⟨hf, he⟩ | ⟨hf, -, he⟩ | ⟨⟨hf, -⟩, k, -, -, he⟩ | ⟨⟨hf, -⟩, -, u, he, hu⟩ := exec_cases i s <;>
    obtain rfl := Host.Outcome.next.inj (he.symm.trans h)
  · exact .halted hf rfl
  · exact .fault hf _ rfl
  · exact .fault hf _ rfl
  · exact .completed hf hu

theorem illegalCommand_outcome {w : CmdWord} {s t : State} (h : illegalCommand w s = .next t) :
    CommandOutcome s t := by
  unfold illegalCommand at h
  split at h <;> obtain rfl := Host.Outcome.next.inj h
  · exact .halted ‹_› rfl
  · exact .fault (Bool.eq_false_of_not_eq_true ‹_›) _ rfl

theorem issueCommand_outcome {c : Command} {s t : State} (h : issueCommand c s = .next t) : CommandOutcome s t := by
  unfold issueCommand at h
  split at h
  · split at h
    · exact exec_outcome h
    · exact illegalCommand_outcome h
  · cases h

/-! ### The halted block -/

/-- A halted block executes and answers no command (R153). -/
theorem issueCommand_halted {c : Command} {s t : State} (hf : s.faulted = true) (h : issueCommand c s = .next t) :
    t = s.noAnswer := by
  cases issueCommand_outcome h with
  | halted _ ht => exact ht
  | fault hrun | completed hrun => simp [hf] at hrun

theorem eq_of_readStorage_eq_next {b : Nat} {s t : State} (h : readStorage b s = .next t) :
    t = { s with answer := some (.byte (s.byteAt b)) } := by
  unfold readStorage at h
  split at h
  · exact (Host.Outcome.next.inj h).symm
  · cases h

theorem eq_of_writeStorage_eq_next {b : Nat} {v : Byte} {s t : State} (h : writeStorage b v s = .next t) :
    t = (s.writeByte b v).noAnswer := by
  unfold writeStorage at h
  split at h
  · exact (Host.Outcome.next.inj h).symm
  · cases h

/-- On a halted block only reset changes STATUS (R153). -/
theorem perform_halted_status {a : HostAction} {s t : State} (hf : s.faulted = true) (ha : a ≠ .reset)
    (h : perform a s = .next t) : t.status = s.status := by
  cases a with
  | command c => rw [issueCommand_halted hf h, State.noAnswer_status]
  | readRegister r => rw [← Host.Outcome.next.inj h]
  | writeRegister r v => rw [← Host.Outcome.next.inj h, State.noAnswer_status]
  | readByte b => rw [eq_of_readStorage_eq_next h]
  | writeByte b v => rw [eq_of_writeStorage_eq_next h, State.noAnswer_status, State.writeByte_status]
  | reset => exact absurd rfl ha

@[simp] theorem State.applyReset_faulted (s : State) : s.applyReset.faulted = false := by
  simp [State.faulted]

/-- Settles O30: a command leaves the block as it is, the ports are those of a running block, and no action but reset
changes STATUS. -/
theorem haltedBlockTakesNoCommand : Obligations.HaltedBlockTakesNoCommand := by
  refine fun s hf => ⟨fun _ _ => issueCommand_halted hf, fun _ => rfl, fun b ha hb => ?_, fun a t h hrun => ?_,
    s.applyReset, rfl, s.applyReset_faulted⟩
  · have hport : s.hasByte b = true := State.hasByte_of_lt ha hb
    refine ⟨perform_readByte hport, fun v => ⟨_, perform_writeByte v hport, ?_⟩⟩
    rw [State.noAnswer_byteAt, State.writeByte_byteAt, if_pos rfl]
  · by_contra ha
    have hstay : t.faulted = s.faulted := congrArg (·.getLsbD 0) (perform_halted_status hf ha h)
    simp [hstay, hf] at hrun

/-! ### Which fault a command raises -/

/-- Settles O32: no command reads the mode before it finds that there is no storage. -/
theorem noStorageIsInvalidReference : Obligations.NoStorageIsInvalidReference := fun _ => exec_detached

/-- A running block raises ILLEGAL_COMMAND on an illegal word before every other check (R156). -/
theorem perform_command_of_not_mem_legalWords {s : State} {c : Command} (hf : s.faulted = false)
    (hfit : c.fits s.par.argWidth = true) (hw : c.cmd ∉ legalWords) :
    perform (.command c) s = .next (s.enterFault (.illegalCommand c.cmd)) :=
  (issueCommand_of_not_mem_legalWords hfit hw).trans (illegalCommand_running c.cmd hf)

/-- Settles O36: the interface answers the fault entry whatever the parameters, and the rest is what it leaves. -/
theorem illegalWordFaultsInBothModes : Obligations.IllegalWordFaultsInBothModes := fun s _ hf hfit hw =>
  ⟨_, perform_command_of_not_mem_legalWords hf hfit hw, s.enterFault_faulted _, s.enterFault_faultCode _,
    s.enterFault_faultInfo _, s.enterFault_storage_of_precise _ nofun, s.enterFault_answer _⟩

/-- A command on the words 1 to 4 and 8 has bus A as its first index operand (R61, R69). -/
theorem exists_decode_with_index_a {c : Command}
    (h : c.cmd ∈ [(0x00000001 : CmdWord), 0x00000002, 0x00000003, 0x00000004, 0x00000008]) :
    ∃ i post, decode c = .ok i ∧ indexOperands i = c.a :: post := by
  obtain ⟨w, a, b⟩ := c
  obtain ⟨hget, hset, htoggle, hswap, -, -, -, -, -, -, -, hmap⟩ := twelveWordsSelectTheirCommands.1 a b
  simp only [List.mem_cons, List.not_mem_nil, or_false] at h
  obtain rfl | rfl | rfl | rfl | rfl := h
  exacts [⟨_, _, hget, rfl⟩, ⟨_, _, hset, rfl⟩, ⟨_, _, htoggle, rfl⟩, ⟨_, _, hswap, rfl⟩, ⟨_, _, hmap, rfl⟩]

/-- Settles O34: a legal word is run as the command it decodes to, whose first fault is the reference and then the first
of its index operands out of range. -/
theorem faultPriority : Obligations.FaultPriority := by
  refine fun s c hf hfit =>
    ⟨perform_command_of_not_mem_legalWords hf hfit, fun hw ha => ?_, fun hw ha hA => ?_, fun hw ha hA hB => ?_⟩
  · obtain ⟨i, hi⟩ := (exists_decode_eq_ok_iff c).mpr hw
    exact (issueCommand_of_decode hfit hi).trans (exec_detached i hf ha)
  · obtain ⟨i, post, hi, hindices⟩ := exists_decode_with_index_a hw
    exact (issueCommand_of_decode hfit hi).trans (exec_index (pre := []) ⟨hf, ha⟩ hindices (by simp) hA)
  · have hi : decode c = .ok (.swap c.a c.b) := by
      obtain ⟨w, a, b⟩ := c
      subst hw
      exact decode_of_encode rfl
    exact (issueCommand_of_decode hfit hi).trans (exec_index (pre := [c.a]) ⟨hf, ha⟩ rfl (by simpa using hA) hB)

theorem Completed.faulted {s t : State} (h : Completed s t) : t.faulted = s.faulted :=
  congrArg (·.getLsbD 0) h.status

/-- Settles O35: a running block is faulted only by a fault entry, and only the entry of code 4 touches the storage. -/
theorem faultsArePrecise : Obligations.FaultsArePrecise := by
  intro s t c hf h hfault hcode
  cases issueCommand_outcome h with
  | halted hhalted => simp [hf] at hhalted
  | completed _ ht => simp [ht.faulted, hf] at hfault
  | fault _ cause ht =>
    subst ht
    refine s.enterFault_storage_of_precise cause fun k hk => ?_
    simp [hk, faultCodeOf] at hcode

end Sys2Proof.Machine
end

section
/-!
PROOFS. Construction: which parameters are those of a block (R6, R11, R12, R13), the reset state of a block (R170 to
R174), and the two ways to make one (R172, R173).
-/

namespace Sys2Proof.Machine

/-! ### The parameters of a block -/

theorem params_wf_iff (p : Params) :
    p.wf = true ↔ 1 ≤ p.nb ∧ p.W ≤ 2 ^ p.argWidth ∧ 1 ≤ p.scratchBytes ∧
      (p.attached = true → p.init.fits p.nb = true) := by
  cases h : p.attached <;> simp [Params.wf, h, and_assoc]

/-- There is no block of no bytes (R6). -/
theorem not_wf_of_nb_eq_zero {p : Params} (h : p.nb = 0) : ¬ p.wf = true := fun hp => by
  obtain ⟨hnb, -⟩ := (params_wf_iff p).mp hp
  omega

/-- There is no block whose buses are too narrow for its indices (R11). -/
theorem not_wf_of_two_pow_argWidth_lt {p : Params} (h : 2 ^ p.argWidth < p.W) : ¬ p.wf = true := fun hp => by
  obtain ⟨-, hbus, -⟩ := (params_wf_iff p).mp hp
  omega

/-! ### The storage at reset -/

theorem initialStorage_of_detached {p : Params} (h : p.attached = false) : initialStorage p = [] := by
  simp [initialStorage, h]

theorem initialStorage_of_zeroed {p : Params} (h : p.init = .zeroed) : initialStorage p = [] := by
  simp [initialStorage, h]

theorem initialStorage_of_borrowed {p : Params} {bytes : List Byte} (ha : p.attached = true)
    (h : p.init = .borrowed bytes) :
    initialStorage p = Memory.writeEach id (borrowedByte bytes) p.nb [] := by
  simp [initialStorage, ha, h]

theorem initialStorage_read_of_borrowed {p : Params} {bytes : List Byte} (ha : p.attached = true)
    (h : p.init = .borrowed bytes) {b : Nat} (hb : b < p.nb) :
    Memory.read (initialStorage p) b = borrowedByte bytes b := by
  rw [initialStorage_of_borrowed ha h]
  exact Memory.read_writeEach_same (g := id) _ _ hb fun _ _ hj => hj

theorem getElem?_eq_borrowedByte {bytes : List Byte} {b : Nat} (h : b < bytes.length) :
    bytes[b]? = some (borrowedByte bytes b) := by
  rw [borrowedByte, List.getD_eq_getElem _ _ h, List.getElem?_eq_getElem h]

/-- The storage at reset is in canonical form and inside `0 .. NB-1` (R40, R171). -/
theorem initialStorage_canonical (p : Params) :
    Memory.wf (initialStorage p) ∧ Memory.below p.nb (initialStorage p) := by
  have hnil : Memory.wf [] ∧ Memory.below p.nb [] := ⟨⟨List.Pairwise.nil, by simp⟩, by simp⟩
  cases ha : p.attached with
  | false => rwa [initialStorage_of_detached ha]
  | true =>
    cases hi : p.init with
    | zeroed => rwa [initialStorage_of_zeroed hi]
    | borrowed bytes =>
      rw [initialStorage_of_borrowed ha hi]
      exact ⟨Memory.wf_writeEach _ _ _ hnil.1, Memory.below_writeEach _ (fun _ hb => hb) hnil.2⟩

/-! ### The reset state of a block -/

theorem State.construct_inv {p : Params} (h : p.wf = true) : (State.construct p).Inv := by
  obtain ⟨hwf, hbelow⟩ := initialStorage_canonical p
  exact ⟨h, hwf, hbelow, initialStorage_of_detached, by simp [legalStatus], fun _ => rfl, Nat.two_pow_pos _, rfl⟩

theorem State.construct_ready {p : Params} (h : p.attached = true) : (State.construct p).Ready :=
  ⟨by simp [State.faulted], h⟩

theorem State.construct_byteAt_of_zeroed {p : Params} (h : p.init = .zeroed) (b : Nat) :
    (State.construct p).byteAt b = 0x00 := by
  rw [State.byteAt, State.construct_storage, initialStorage_of_zeroed h]
  rfl

theorem State.value_eq_zero_of_byteAt_eq_zero {s : State} (h : ∀ b, b < s.par.nb → s.byteAt b = 0x00) :
    s.value = 0 := by
  rw [State.value, State.valueOfBytes_eq_sum]
  refine Finset.sum_eq_zero fun k hk => ?_
  simp [h _ (s.phys_lt (Finset.mem_range.mp hk))]

/-- A block over a borrowed buffer of `NB` bytes holds the bytes of the buffer (R12, R171). -/
theorem State.construct_byteAt_of_borrowed {p : Params} {bytes : List Byte} (ha : p.attached = true)
    (h : p.init = .borrowed bytes) (hlen : bytes.length = p.nb) {b : Nat} (hb : b < bytes.length) :
    bytes[b]? = some ((State.construct p).byteAt b) := by
  rw [getElem?_eq_borrowedByte hb, State.byteAt, State.construct_storage,
    initialStorage_read_of_borrowed ha h (hlen ▸ hb)]

/-! ### Construction by new -/

/-- The parameters that `new` constructs with (R172). -/
def newParams (numBits : Nat) (endian : Endian) (checked : Bool) (argWidth scratch : Nat) : Params :=
  { nb := sizeOfNew numBits, endian := endian, checked := checked, attached := true, argWidth := argWidth,
    init := .zeroed, scratchBytes := scratch }

section
variable {numBits argWidth scratch : Nat} {endian : Endian} {checked : Bool}

theorem newBlock_of_wf (h : (newParams numBits endian checked argWidth scratch).wf = true) :
    newBlock numBits endian checked argWidth scratch =
      some (State.construct (newParams numBits endian checked argWidth scratch)) :=
  if_pos h

theorem newBlock_of_not_wf (h : ¬ (newParams numBits endian checked argWidth scratch).wf = true) :
    newBlock numBits endian checked argWidth scratch = none :=
  if_neg h

end

theorem newParams_W (numBits : Nat) (endian : Endian) (checked : Bool) (argWidth scratch : Nat) :
    (newParams numBits endian checked argWidth scratch).W = 8 * ((numBits + 7) / 8) :=
  Nat.mul_comm _ _

/-- Settles O46: `new` constructs the reset state of its parameters exactly where these are those of a block. -/
theorem constructionByNew : Obligations.ConstructionByNew := by
  intro numBits endian checked argWidth scratch
  have hW := newParams_W numBits endian checked argWidth scratch
  refine ⟨newBlock_of_not_wf (not_wf_of_nb_eq_zero rfl), fun hbus => ?_, fun hbits hbus hscratch => ?_⟩
  · exact newBlock_of_not_wf (not_wf_of_two_pow_argWidth_lt (hW ▸ hbus))
  · have hsize : 1 ≤ sizeOfNew numBits ∧ numBits ≤ 8 * sizeOfNew numBits ∧ 8 * sizeOfNew numBits < numBits + 8 := by
      unfold sizeOfNew
      omega
    obtain ⟨hnb, hle, hlt⟩ := hsize
    have hp : (newParams numBits endian checked argWidth scratch).wf = true :=
      (params_wf_iff _).mpr ⟨hnb, hW ▸ hbus, hscratch, fun _ => rfl⟩
    have hzero := State.construct_byteAt_of_zeroed (p := newParams numBits endian checked argWidth scratch) rfl
    exact ⟨_, newBlock_of_wf hp, State.construct_inv hp, State.construct_ready rfl, rfl, rfl, hle, hlt,
      fun b _ => hzero b, State.value_eq_zero_of_byteAt_eq_zero fun b _ => hzero b⟩

/-! ### Construction by from_bytes -/

/-- The parameters that `from_bytes` constructs with (R173). -/
def fromBytesParams (data : List Byte) (length header : Nat) (endian : Endian) (checked : Bool)
    (argWidth scratch : Nat) : Params :=
  { nb := length - header, endian := endian, checked := checked, attached := true, argWidth := argWidth,
    init := .borrowed data, scratchBytes := scratch }

section
variable {data : List Byte} {length header argWidth scratch : Nat} {endian : Endian} {checked : Bool}

theorem fromBytesBlock_of_wf (hlen : header ≤ length)
    (h : (fromBytesParams data length header endian checked argWidth scratch).wf = true) :
    fromBytesBlock data length header endian checked argWidth scratch =
      some (State.construct (fromBytesParams data length header endian checked argWidth scratch)) :=
  if_pos (by rw [decide_eq_true hlen, Bool.true_and]; exact h)

theorem fromBytesBlock_of_not_wf
    (h : ¬ (fromBytesParams data length header endian checked argWidth scratch).wf = true) :
    fromBytesBlock data length header endian checked argWidth scratch = none :=
  if_neg fun hp => h (Bool.and_eq_true_iff.mp hp).2

end

/-- Settles O47: `from_bytes` constructs the reset state of its parameters, whose `NB` is 0 where no byte is left. -/
theorem constructionFromBytes : Obligations.ConstructionFromBytes := by
  intro data header endian checked argWidth scratch
  refine ⟨fun length hle => ?_, fun hdata hbus hscratch => ?_⟩
  · exact fromBytesBlock_of_not_wf (not_wf_of_nb_eq_zero (Nat.sub_eq_zero_of_le hle))
  · have hnb : header + data.length - header = data.length := Nat.add_sub_cancel_left _ _
    have hp : (fromBytesParams data (header + data.length) header endian checked argWidth scratch).wf = true := by
      refine (params_wf_iff _).mpr ⟨?_, ?_, hscratch, fun _ => ?_⟩
      · have := List.length_pos_iff.mpr hdata
        simp only [fromBytesParams]
        omega
      · simp only [fromBytesParams, Params.W, hnb]
        omega
      · simp [fromBytesParams, Init.fits]
    exact ⟨_, fromBytesBlock_of_wf (Nat.le_add_right _ _) hp, State.construct_inv hp, hnb,
      fun _ => State.construct_byteAt_of_borrowed rfl rfl hnb.symm⟩

end Sys2Proof.Machine
end

section
/-!
PROOFS. The encoding read backwards (R61, R70), and the operands of a command that the buses carry (R11).
-/

namespace Sys2Proof

/-- The assembler lays 0 on the buses a command does not use (R70). -/
theorem encode_eq_usedBuses (i : Instr) :
    encode i = { cmd := (encode i).cmd, a := if i.usesA then (encode i).a else 0,
                 b := if i.usesB then (encode i).b else 0 } := by
  cases i <;> rfl

theorem decode_encode (i : Instr) : decode (encode i) = .ok i :=
  (decode_eq_ok_iff (encode i) i).mpr (encode_eq_usedBuses i)

/-- Settles O1: what the decoder answers is said by the encoder, whose own commands meet that condition. -/
theorem decodeAndEncodeAgree : Obligations.DecodeAndEncodeAgree :=
  ⟨decode_encode, fun i c => decode_eq_ok_iff c i⟩

theorem Command.fits_iff (w : Nat) (c : Command) : c.fits w = true ↔ c.a < 2 ^ w ∧ c.b < 2 ^ w := by
  simp [Command.fits]

theorem Instr.wf_iff (w : Nat) (i : Instr) : i.wf w = true ↔ i.operands.1 < 2 ^ w ∧ i.operands.2 < 2 ^ w := by
  simp [Instr.wf]

/-- A command on buses of `w` bits decodes to one whose operands have `w` bits (R61). -/
theorem Instr.wf_of_decode {w : Nat} {c : Command} {i : Instr} (hfit : c.fits w = true) (h : decode c = .ok i) :
    i.wf w = true := by
  have hencode := (decode_eq_ok_iff c i).mp h
  have ha : i.operands.1 = if i.usesA then c.a else 0 := congrArg Command.a hencode
  have hb : i.operands.2 = if i.usesB then c.b else 0 := congrArg Command.b hencode
  obtain ⟨hca, hcb⟩ := (Command.fits_iff w c).mp hfit
  have hzero : 0 < 2 ^ w := Nat.two_pow_pos w
  rw [Instr.wf_iff, ha, hb]
  constructor <;> split_ifs <;> assumption

namespace Machine

/-- An index operand is one of the two bus operands (R61, R90). -/
theorem eq_operand_of_mem_indexOperands {i : Instr} {k : Nat} (h : k ∈ indexOperands i) :
    k = i.operands.1 ∨ k = i.operands.2 := by
  cases i <;> simp_all [indexOperands, Instr.operands]

theorem lt_of_mem_indexOperands {w : Nat} {i : Instr} {k : Nat} (hi : i.wf w = true) (h : k ∈ indexOperands i) :
    k < 2 ^ w := by
  obtain ⟨ha, hb⟩ := (Instr.wf_iff w i).mp hi
  obtain rfl | rfl := eq_operand_of_mem_indexOperands h
  · exact ha
  · exact hb

end Machine

end Sys2Proof
end

section
/-!
PROOFS. What a command writes and responds: every write reaches a byte that exists (R44, R159), and a command that
completes responds its own fields (R62, R91, R85); with it, what every command leaves (R90).
-/

namespace Sys2Proof.Machine

/-! ### Writes to bytes that exist -/

/-- `s.Writes m`: the storage `m` is that of `s` after writes to bytes that exist (R44). -/
inductive State.Writes (s : State) : Memory → Prop where
  | keep : s.Writes s.storage
  | write {m : Memory} {a : Nat} (v : Byte) (ha : s.hasByte a = true) (hm : s.Writes m) : s.Writes (Memory.write m a v)

theorem State.hasByte_iff (s : State) (b : Nat) : s.hasByte b = true ↔ s.par.attached = true ∧ b < s.par.nb := by
  simp [State.hasByte]

theorem State.Writes.writeEach {s : State} {g : Nat → Nat} {n : Nat} {m : Memory} (f : Nat → Byte)
    (hg : ∀ k < n, s.hasByte (g k) = true) (hm : s.Writes m) : s.Writes (Memory.writeEach g f n m) := by
  induction n with
  | zero => exact hm
  | succ n ih => exact .write _ (hg n n.lt_succ_self) (ih fun k hk => hg k (hk.trans n.lt_succ_self))

theorem State.Writes.wf {s : State} {m : Memory} (h : s.Writes m) (hs : Memory.wf s.storage) : Memory.wf m := by
  induction h with
  | keep => exact hs
  | write v _ _ ih => exact Memory.wf_write _ v ih

theorem State.Writes.addresses_below {s : State} {m : Memory} (h : s.Writes m) (hs : Memory.below s.par.nb s.storage) :
    Memory.below s.par.nb m := by
  induction h with
  | keep => exact hs
  | write v ha _ ih => exact Memory.below_write v ((s.hasByte_iff _).mp ha).2 ih

/-- With no storage nothing is written (R171). -/
theorem State.Writes.eq_of_detached {s : State} {m : Memory} (h : s.Writes m) (hs : s.par.attached = false) :
    m = s.storage := by
  cases h with
  | keep => rfl
  | write v ha _ => simp [State.hasByte, hs] at ha

/-- No byte outside the storage is written (R40). -/
theorem State.Writes.read_of_ge {s : State} {m : Memory} {b : Nat} (h : s.Writes m) (hb : s.par.nb ≤ b) :
    m.read b = s.byteAt b := by
  induction h with
  | keep => rfl
  | write v ha _ ih =>
    have hne : b ≠ _ := (((s.hasByte_iff _).mp ha).2.trans_le hb).ne'
    rw [Memory.read_write, if_neg hne, ih]

theorem State.fillAll_writes {s : State} (v : Byte) (h : s.par.attached = true) : s.Writes (s.fillAll v).storage :=
  State.Writes.keep.writeEach _ fun _ => State.hasByte_of_lt h

theorem State.storeLogical_writes {s : State} (f : Nat → Byte) (h : s.par.attached = true) :
    s.Writes (s.storeLogical f).storage :=
  State.Writes.keep.writeEach f fun _ hk => State.hasByte_of_lt h (s.phys_lt hk)

/-- Only the fault of code 4 touches the storage, and it draws bytes that exist (R157, R159). -/
theorem State.enterFault_writes {s : State} {c : Cause} (h : ∀ k, c = .unspecified k → s.par.attached = true) :
    s.Writes (s.enterFault c).storage := by
  cases c with
  | unspecified k => exact State.Writes.keep.writeEach _ fun _ => State.hasByte_of_lt (h k rfl)
  | illegalCommand w => exact .keep
  | invalidReference => exact .keep
  | indexOutOfRange k => exact .keep

theorem engine_writes (dir : Direction) (fill : Fill) (p : Nat) {s : State} (h : s.par.attached = true) :
    s.Writes (engine dir fill p s).storage := by
  obtain ⟨-, he⟩ | ⟨-, he⟩ | ⟨n, -, he⟩ := engine_cases dir fill p s <;> rw [he, State.respond_storage]
  · exact .keep
  · exact State.fillAll_writes _ h
  · exact State.storeLogical_writes _ h

/-! ### The effect of a command -/

/-- The response fields of a command that completes: the bit of GET, the address of MAP, and 0 for every other (R62). -/
def okResponse (s : State) : Instr → Nat × Nat
  | .get a => (if s.value.testBit a then 1 else 0, 0)
  | .map a => s.addr a
  | _ => (0, 0)

/-- What a command leaves when its effect happens: its response, its writes, and for GET and MAP not even those (R90). -/
structure CommandEffect (i : Instr) (s t : State) : Prop where
  /-- only the storage and the answer may differ -/
  completedAs : s.CompletedAs t (okResponse s i).1 (okResponse s i).2
  /-- every write reaches a byte that exists -/
  writes : s.Writes t.storage
  /-- GET and MAP write nothing -/
  readOnly : (∃ a, i = .get a ∨ i = .map a) → t.storage = s.storage

/-- Every shift command has its effect at every count. -/
theorem exec_shiftCommand_effect {s : State} (dir : Direction) (fill : Fill) (p : Nat) (hr : s.Ready) :
    ∃ t, exec (shiftCommand dir fill p) s = .next t ∧ CommandEffect (shiftCommand dir fill p) s t := by
  refine ⟨_, exec_shiftCommand_ready dir fill p hr, ?_, engine_writes dir fill p hr.2, ?_⟩
  · have hdone := engine_completedAs dir fill p s
    cases dir <;> cases fill <;> exact hdone
  · cases dir <;> cases fill <;> simp [shiftCommand]

/-- A command on a ready block whose indices are in range has its effect. -/
theorem exec_effect {s : State} {i : Instr} (hr : s.Ready) (hi : ∀ k ∈ indexOperands i, k < s.W) :
    ∃ t, exec i s = .next t ∧ CommandEffect i s t := by
  have hbyte {k : Nat} (hk : k < s.W) : s.hasByte (s.addr k).1 = true := State.hasByte_of_lt hr.2 (s.addr_byte_lt hk)
  cases i with
  | get a => exact ⟨_, exec_get_of_lt hr (hi a (by simp [indexOperands])), rfl, .keep, fun _ => rfl⟩
  | map a => exact ⟨_, exec_map_of_lt hr (hi a (by simp [indexOperands])), rfl, .keep, fun _ => rfl⟩
  | set a v =>
    have ha := hi a (by simp [indexOperands])
    exact ⟨_, exec_set_of_lt v hr ha, rfl, .write _ (hbyte ha) .keep, by simp⟩
  | toggle a =>
    have ha := hi a (by simp [indexOperands])
    exact ⟨_, exec_toggle_of_lt hr ha, rfl, .write _ (hbyte ha) .keep, by simp⟩
  | swap a b =>
    have ha := hi a (by simp [indexOperands])
    have hb := hi b (by simp [indexOperands])
    exact ⟨_, exec_swap_of_lt hr ha hb, rfl, .write _ (hbyte hb) (.write _ (hbyte ha) .keep), by simp⟩
  | setAll v => exact ⟨_, exec_setAll_ready v hr, rfl, State.fillAll_writes _ hr.2, by simp⟩
  | shlZ p => exact exec_shiftCommand_effect .left .zero p hr
  | shlO p => exact exec_shiftCommand_effect .left .one p hr
  | shlR p => exact exec_shiftCommand_effect .left .ring p hr
  | shrZ p => exact exec_shiftCommand_effect .right .zero p hr
  | shrO p => exact exec_shiftCommand_effect .right .one p hr
  | shrR p => exact exec_shiftCommand_effect .right .ring p hr

/-- What `i` leaves of `s`, with the reason: the block is halted, a check of the command fails, or its effect happens. -/
inductive ExecResult (i : Instr) (s t : State) : Prop where
  | halted (hf : s.faulted = true) (ht : t = s.noAnswer)
  | detached (hf : s.faulted = false) (ht : t = s.enterFault .invalidReference)
  | index (hr : s.Ready) (k : Nat) (hk : k ∈ indexOperands i) (ht : t = s.enterFault (s.indexCause k))
  | completed (hr : s.Ready) (hi : ∀ k ∈ indexOperands i, k < s.W) (ht : CommandEffect i s t)

/-- Every command answers a next state in every state. -/
theorem exec_total (i : Instr) (s : State) : ∃ t, exec i s = .next t ∧ ExecResult i s t := by
  obtain ⟨hf, he⟩ | ⟨hf, -, he⟩ | ⟨hr, k, hk, -, he⟩ | ⟨hr, hi, -⟩ := exec_cases i s
  · exact ⟨_, he, .halted hf rfl⟩
  · exact ⟨_, he, .detached hf rfl⟩
  · exact ⟨_, he, .index hr k hk rfl⟩
  · obtain ⟨t, he, ht⟩ := exec_effect hr hi
    exact ⟨t, he, .completed hr hi ht⟩

theorem exec_result {i : Instr} {s t : State} (h : exec i s = .next t) : ExecResult i s t := by
  obtain ⟨u, hu, hresult⟩ := exec_total i s
  obtain rfl := Host.Outcome.next.inj (hu.symm.trans h)
  exact hresult

/-- Every command writes only bytes that exist, the Unspecified outcome too. -/
theorem exec_writes {i : Instr} {s t : State} (h : exec i s = .next t) : s.Writes t.storage := by
  cases exec_result h with
  | halted _ ht => exact ht ▸ .keep
  | detached _ ht => exact ht ▸ .keep
  | index hr k _ ht => exact ht ▸ State.enterFault_writes fun _ _ => hr.2
  | completed _ _ ht => exact ht.writes

/-- An action taken by a command leaves the actions to come. -/
theorem CommandOutcome.pending {s t : State} (h : CommandOutcome s t) : t.pending = s.pending := by
  cases h with
  | halted _ ht => rw [ht, State.noAnswer_pending]
  | fault _ cause ht => rw [ht, State.enterFault_pending]
  | completed _ ht => exact ht.pending

/-- Only a command whose effect happens responds `OK` (R62). -/
theorem effect_of_answer_ok {i : Instr} {s t : State} {r0 r1 : Nat} (h : exec i s = .next t)
    (hok : t.answer = some (.response { rstatus := .ok, r0 := r0, r1 := r1 })) :
    CommandEffect i s t ∧ okResponse s i = (r0, r1) := by
  cases exec_result h with
  | halted _ ht => simp [ht] at hok
  | detached _ ht => simp [ht] at hok
  | index _ k _ ht => simp [ht] at hok
  | completed _ _ ht =>
    have hanswer := congrArg State.answer ht.completedAs
    rw [hok] at hanswer
    simp only [Option.some.injEq, Answer.response.injEq, Response.mk.injEq] at hanswer
    obtain ⟨-, h0, h1⟩ := hanswer
    exact ⟨ht, Prod.ext h0.symm h1.symm⟩

/-- Settles O37: a command changes the storage by writes to bytes that exist, and answers `OK` only with its effect. -/
theorem commandFrame : Obligations.CommandFrame := by
  refine fun s t i h => ⟨exec_par h, (exec_outcome h).pending, fun b => (exec_writes h).read_of_ge,
    fun r0 r1 hok => ?_⟩
  obtain ⟨heffect, hresponse⟩ := effect_of_answer_ok h hok
  have hdone := heffect.completedAs
  rw [hresponse] at hdone
  exact ⟨hdone, heffect.readOnly⟩

theorem okResponse_of_not_reader {s : State} {i : Instr} (h : ∀ a, i ≠ .get a ∧ i ≠ .map a) :
    okResponse s i = (0, 0) := by
  cases i with
  | get a => exact absurd rfl (h a).1
  | map a => exact absurd rfl (h a).2
  | _ => rfl

/-- Settles O38: a running block enters a fault, whose report is its response, or has its effect, which responds. -/
theorem everyCommandEndsWithItsResponse : Obligations.EveryCommandEndsWithItsResponse := by
  intro s i hf
  have hreport (c : Cause) : (s.enterFault c).faulted = true ∧ (s.enterFault c).answer =
      some (.response { rstatus := .fault, r0 := (s.enterFault c).faultCode, r1 := (s.enterFault c).faultInfo }) := by
    simp
  obtain ⟨t, he, hresult⟩ := exec_total i s
  cases hresult with
  | halted hhalted => simp [hf] at hhalted
  | detached _ ht => exact ⟨t, _, _, he, .inr ⟨ht ▸ (hreport _).1, ht ▸ (hreport _).2, rfl, rfl⟩⟩
  | index _ k _ ht => exact ⟨t, _, _, he, .inr ⟨ht ▸ (hreport _).1, ht ▸ (hreport _).2, rfl, rfl⟩⟩
  | completed _ _ ht =>
    have hstatus : t.status = s.status := by rw [ht.completedAs]
    refine ⟨t, _, _, he, .inl ⟨?_, congrArg State.answer ht.completedAs, ?_, ?_, fun h => ?_⟩⟩
    · rwa [State.faulted, hstatus]
    · rintro a rfl
      exact ⟨rfl, rfl⟩
    · rintro a rfl
      rfl
    · rw [okResponse_of_not_reader h]
      exact ⟨rfl, rfl⟩

end Sys2Proof.Machine
end

section
/-!
PROOFS. The step of the machine: what a step does with the host's next action (R46, R50, R169), the moves that stop the
model (log entry 8), and the host that keeps its duties (R180, R181).
-/

namespace Sys2Proof.Machine

/-! ### One step -/

theorem step_idle {s : State} (hwf : s.par.wf = true) (h : s.pending = []) : step s = .next s := by
  simp [step, stepHost, hwf, h]

theorem step_of_pending {s : State} {a : HostAction} {rest : List HostAction} (hwf : s.par.wf = true)
    (h : s.pending = a :: rest) : step s = perform a { s with pending := rest } := by
  simp [step, stepHost, hwf, h]

theorem step_of_not_wf {s : State} (hwf : s.par.wf = false) : step s = .refused .noSuchBlock := by
  simp [step, stepHost, hwf]

theorem step_withNextAction {s : State} (a : HostAction) (hwf : s.par.wf = true) :
    step (s.withNextAction a) = perform a s :=
  step_of_pending (s := s.withNextAction a) hwf rfl

/-- Everything a step that answers a next state can do: nothing where the block is idle, or the host's next action. -/
theorem step_cases {s t : State} (h : step s = .next t) :
    (s.pending = [] ∧ t = s) ∨
      ∃ a rest, s.pending = a :: rest ∧ perform a { s with pending := rest } = .next t := by
  cases hwf : s.par.wf with
  | false => simp [step_of_not_wf hwf] at h
  | true =>
    cases hp : s.pending with
    | nil =>
      rw [step_idle hwf hp] at h
      exact .inl ⟨rfl, (Host.Outcome.next.inj h).symm⟩
    | cons a rest => exact .inr ⟨a, rest, rfl, (step_of_pending hwf hp).symm.trans h⟩

/-- No action adds to the actions to come or takes one of them. -/
theorem perform_pending {a : HostAction} {s t : State} (h : perform a s = .next t) : t.pending = s.pending := by
  cases a with
  | command c => exact (issueCommand_outcome h).pending
  | readRegister r => rw [← Host.Outcome.next.inj h]
  | writeRegister r v => rw [← Host.Outcome.next.inj h, State.noAnswer_pending]
  | readByte b => rw [eq_of_readStorage_eq_next h]
  | writeByte b v => rw [eq_of_writeStorage_eq_next h, State.noAnswer_pending, State.writeByte_pending]
  | reset => rw [← Host.Outcome.next.inj h, State.applyReset_pending]

/-- Settles O6: the three cases of a step, and what an action leaves to come. -/
theorem actionsTakeEffectInOrder : Obligations.ActionsTakeEffectInOrder := fun _ =>
  ⟨step_idle, fun _ _ => step_of_pending, fun _ _ => perform_pending⟩

theorem perform_command_of_decode {s : State} {c : Command} {i : Instr} (hfit : c.fits s.par.argWidth = true)
    (h : decode c = .ok i) : perform (.command c) s = exec i s :=
  issueCommand_of_decode hfit h

/-- Buses of 0 fit every width. -/
theorem commandOfBits_fits (nbits w width : Nat) : (commandOfBits nbits w).fits width = true :=
  (Command.fits_iff width _).mpr ⟨Nat.two_pow_pos width, Nat.two_pow_pos width⟩

theorem decodeTableWord_eq_some_iff (nbits w : Nat) (i : Instr) :
    decodeTableWord nbits w = some i ↔ decode (commandOfBits nbits w) = .ok i := by
  unfold decodeTableWord
  split <;> simp_all

/-- Settles O5: the step performs the action, and the interface hands a command it can decode to exec. -/
theorem stepRunsTheDecodedCommand : Obligations.StepRunsTheDecodedCommand := by
  refine ⟨fun s c i rest hwf hp hfit hi => ⟨Instr.wf_of_decode hfit hi, ?_⟩, fun s nbits w i hwf hi => ?_⟩
  · exact (step_of_pending hwf hp).trans (perform_command_of_decode (s := { s with pending := rest }) hfit hi)
  · exact (step_withNextAction _ hwf).trans
      (perform_command_of_decode (commandOfBits_fits _ _ _) ((decodeTableWord_eq_some_iff _ _ _).mp hi))

/-! ### Moves that stop the model -/

theorem State.hasByte_eq_false {s : State} {b : Nat} (h : s.par.attached = false ∨ s.par.nb ≤ b) :
    s.hasByte b = false := by
  obtain h | h := h <;> simp [State.hasByte, h]

/-- Settles O7: each move fails the check that its interface makes first. -/
theorem movesTheSpecLacksStopByName : Obligations.MovesTheSpecLacksStopByName := by
  refine fun s => ⟨fun b v h => ?_, fun c hc => ?_, step_of_not_wf⟩
  · have hb := State.hasByte_eq_false h
    simp [perform, readStorage, writeStorage, hb]
  · simp [perform, issueCommand, hc]

/-! ### Commands to a halted block -/

theorem exec_halted {s : State} (i : Instr) (hf : s.faulted = true) : exec i s = .next s.noAnswer := by
  obtain ⟨effect, he, -⟩ := exec_eq_runCommand i
  rw [he s, runCommand_halted _ effect hf]

theorem illegalCommand_halted {s : State} (w : CmdWord) (hf : s.faulted = true) :
    illegalCommand w s = .next s.noAnswer := by
  simp [illegalCommand, hf]

/-- Settles O31: a halted block takes a legal word and an illegal one alike. -/
theorem haltedBlockLetsTheHostGoOn : Obligations.HaltedBlockLetsTheHostGoOn := by
  refine fun s hf => ⟨fun i => exec_halted i hf, fun c hfit => ?_⟩
  by_cases hw : c.cmd ∈ legalWords
  · obtain ⟨i, hi⟩ := (exists_decode_eq_ok_iff c).mpr hw
    exact (issueCommand_of_decode hfit hi).trans (exec_halted i hf)
  · exact (issueCommand_of_not_mem_legalWords hfit hw).trans (illegalCommand_halted c.cmd hf)

/-! ### The host that keeps its duties -/

theorem illegalCommand_total (w : CmdWord) (s : State) : ∃ t, illegalCommand w s = .next t := by
  cases hf : s.faulted with
  | true => exact ⟨_, illegalCommand_halted w hf⟩
  | false => exact ⟨_, illegalCommand_running w hf⟩

theorem issueCommand_total {s : State} {c : Command} (hfit : c.fits s.par.argWidth = true) :
    ∃ t, issueCommand c s = .next t := by
  by_cases hw : c.cmd ∈ legalWords
  · obtain ⟨i, hi⟩ := (exists_decode_eq_ok_iff c).mpr hw
    obtain ⟨t, ht, -⟩ := exec_total i s
    exact ⟨t, (issueCommand_of_decode hfit hi).trans ht⟩
  · rw [issueCommand_of_not_mem_legalWords hfit hw]
    exact illegalCommand_total c.cmd s

/-- Every action within the host's duties answers a next state (R181). -/
theorem perform_total_of_allows {s : State} {a : HostAction} (h : s.allows a = true) :
    ∃ t, perform a s = .next t := by
  cases a with
  | command c => exact issueCommand_total h
  | readRegister r => exact ⟨_, rfl⟩
  | writeRegister r v => exact ⟨_, rfl⟩
  | readByte b => exact ⟨_, perform_readByte h⟩
  | writeByte b v => exact ⟨_, perform_writeByte v h⟩
  | reset => exact ⟨_, rfl⟩

/-- The host's duties are set by the parameters alone. -/
theorem State.allows_congr {s t : State} (h : t.par = s.par) (a : HostAction) : t.allows a = s.allows a := by
  cases a <;> simp only [State.allows, State.hasByte, h]

/-- The duties that a host keeps in all its actions, it keeps in those left after a step. -/
theorem step_dutiful {s t : State} (hd : s.Dutiful) (h : step s = .next t) : t.Dutiful := by
  intro b hb
  rw [State.allows_congr (step_par h)]
  obtain ⟨-, rfl⟩ | ⟨a, rest, hp, ha⟩ := step_cases h
  · exact hd b hb
  · rw [perform_pending ha] at hb
    exact hd b (hp ▸ List.mem_cons_of_mem a hb)

/-- Settles O50: an idle block stays, and an allowed action is performed. -/
theorem dutifulHostNeverStopsTheBlock : Obligations.DutifulHostNeverStopsTheBlock := by
  intro s hwf hd
  have hstep : ∃ t, step s = .next t := by
    cases hp : s.pending with
    | nil => exact ⟨s, step_idle hwf hp⟩
    | cons a rest =>
      rw [step_of_pending hwf hp]
      have ha : s.allows a = true := hd a (hp ▸ List.mem_cons_self)
      exact perform_total_of_allows ((State.allows_congr (s := s) rfl a).trans ha)
  obtain ⟨t, ht⟩ := hstep
  exact ⟨t, ht, step_par ht, step_dutiful hd ht⟩

end Sys2Proof.Machine
end

section
/-!
PROOFS. The invariant of the state: the reset state meets it (R170 to R174), and every step keeps it (R26, R27, R40,
R62).
-/

namespace Sys2Proof.Machine

/-! ### The reset state -/

/-- Settles O48: the reset state shown is constructed from its parameters, which are those of a block. -/
theorem resetMeetsTheInvariant : Obligations.ResetMeetsTheInvariant :=
  ⟨State.construct_shown ▸ State.construct_inv (by decide), fun _ => State.construct_inv⟩

theorem State.applyReset_inv {s : State} (h : s.par.wf = true) : s.applyReset.Inv :=
  State.construct_inv h

/-! ### The values that fit the buses -/

/-- The buses of a block carry every bit index, and there are at least 8 of them (R6, R11). -/
theorem W_bounds_of_wf {s : State} (h : s.par.wf = true) : 8 ≤ s.W ∧ s.W ≤ 2 ^ s.par.argWidth := by
  obtain ⟨hnb, hbus, -⟩ := (params_wf_iff _).mp h
  refine ⟨?_, hbus⟩
  unfold State.W
  omega

theorem answerFits_response (w : Nat) (r : Response) :
    answerFits w (some (.response r)) = true ↔ r.r0 < 2 ^ w ∧ r.r1 < 2 ^ w := by
  simp [answerFits]

/-- The response of a command that completes fits in `ARG_WIDTH` bits (R62). -/
theorem okResponse_lt {s : State} {i : Instr} (hwf : s.par.wf = true) (hi : ∀ k ∈ indexOperands i, k < s.W) :
    (okResponse s i).1 < 2 ^ s.par.argWidth ∧ (okResponse s i).2 < 2 ^ s.par.argWidth := by
  obtain ⟨h8, hbus⟩ := W_bounds_of_wf hwf
  have hzero := Nat.two_pow_pos s.par.argWidth
  cases i with
  | get a =>
    refine ⟨?_, hzero⟩
    simp only [okResponse]
    split_ifs <;> omega
  | map a =>
    have hbyte := s.addr_byte_lt (hi a (by simp [indexOperands]))
    have hnb := nb_lt_two_pow_argWidth_of_wf hwf
    have hoffset := s.addr_offset_lt a
    exact ⟨hbyte.trans hnb, hoffset.trans_le (h8.trans hbus)⟩
  | _ => exact ⟨hzero, hzero⟩

/-! ### The invariant through a change of the state -/

/-- A change that keeps STATUS and FAULT_INFO and writes only bytes that exist keeps the invariant. -/
theorem State.Inv.of_writes {s t : State} (h : s.Inv) (hpar : t.par = s.par) (hw : s.Writes t.storage)
    (hstatus : t.status = s.status) (hinfo : t.faultInfo = s.faultInfo)
    (hanswer : answerFits s.par.argWidth t.answer = true) : t.Inv := by
  obtain ⟨hwf, hcells, hbelow, hdetached, hlegal, hclear, hlt, -⟩ := h
  unfold State.Inv
  rw [hpar, hstatus, hinfo]
  exact ⟨hwf, hw.wf hcells, hw.addresses_below hbelow, fun ha => (hw.eq_of_detached ha).trans (hdetached ha), hlegal,
    hclear, hlt, hanswer⟩

theorem State.Inv.noAnswer {s : State} (h : s.Inv) : s.noAnswer.Inv :=
  h.of_writes rfl .keep rfl rfl rfl

/-- STATUS of a running block is 0 (R26). -/
theorem status_eq_zero_of_running {s : State} (h : s.status ∈ legalStatus) (hf : s.faulted = false) : s.status = 0 := by
  unfold State.faulted at hf
  simp only [legalStatus, List.mem_cons, List.not_mem_nil, or_false] at h
  obtain h | h | h | h | h := h <;> rw [h] at hf ⊢ <;> revert hf <;> decide

/-- Each cause has its own legal value of STATUS, and none of them is 0 (R26, R151). -/
theorem statusWithFault_zero_legal (c : Cause) :
    statusWithFault 0 (faultCodeOf c) ∈ legalStatus ∧ statusWithFault 0 (faultCodeOf c) ≠ 0 := by
  cases c <;> simp only [faultCodeOf] <;> decide

/-- A fault entry whose info fits the bus keeps the invariant. -/
theorem State.Inv.enterFault {s : State} {c : Cause} (h : s.Inv) (hf : s.faulted = false)
    (hinfo : faultInfoOf s.par.argWidth c < 2 ^ s.par.argWidth)
    (hstored : ∀ k, c = .unspecified k → s.par.attached = true) : (s.enterFault c).Inv := by
  obtain ⟨hwf, hcells, hbelow, hdetached, hlegal, -⟩ := h
  have hw := State.enterFault_writes hstored
  obtain ⟨hmem, hne⟩ := statusWithFault_zero_legal c
  have hcode : faultCodeOf c < 2 ^ s.par.argWidth := by
    obtain ⟨h8, hbus⟩ := W_bounds_of_wf hwf
    cases c <;> simp only [faultCodeOf] <;> omega
  unfold State.Inv
  rw [State.enterFault_par, State.enterFault_status, State.enterFault_faultInfo, State.enterFault_answer,
    status_eq_zero_of_running hlegal hf, answerFits_response]
  exact ⟨hwf, hw.wf hcells, hw.addresses_below hbelow, fun ha => (hw.eq_of_detached ha).trans (hdetached ha), hmem,
    fun h0 => absurd h0 hne, hinfo, hcode, hinfo⟩

/-! ### The invariant through a step -/

theorem faultInfoOf_indexCause (s : State) (k w : Nat) : faultInfoOf w (s.indexCause k) = k := by
  unfold State.indexCause
  split_ifs <;> rfl

theorem exec_keeps_inv {i : Instr} {s t : State} (hinv : s.Inv) (hi : i.wf s.par.argWidth = true)
    (h : exec i s = .next t) : t.Inv := by
  cases exec_result h with
  | halted _ ht => exact ht ▸ hinv.noAnswer
  | detached hf ht => exact ht ▸ hinv.enterFault hf (Nat.two_pow_pos _) nofun
  | index hr k hk ht =>
    refine ht ▸ hinv.enterFault hr.1 ?_ fun _ _ => hr.2
    rw [faultInfoOf_indexCause]
    exact lt_of_mem_indexOperands hi hk
  | completed _ hrange ht =>
    have hdone := ht.completedAs
    refine hinv.of_writes (by rw [hdone]) ht.writes (by rw [hdone]) (by rw [hdone]) ?_
    rw [hdone]
    exact (answerFits_response _ _).mpr (okResponse_lt hinv.1 hrange)

theorem illegalCommand_keeps_inv {w : CmdWord} {s t : State} (hinv : s.Inv) (h : illegalCommand w s = .next t) :
    t.Inv := by
  cases hf : s.faulted with
  | true =>
    obtain rfl := Host.Outcome.next.inj ((illegalCommand_halted w hf).symm.trans h)
    exact hinv.noAnswer
  | false =>
    obtain rfl := Host.Outcome.next.inj ((illegalCommand_running w hf).symm.trans h)
    exact hinv.enterFault hf (Nat.mod_lt _ (Nat.two_pow_pos _)) nofun

theorem issueCommand_keeps_inv {c : Command} {s t : State} (hinv : s.Inv) (h : issueCommand c s = .next t) :
    t.Inv := by
  unfold issueCommand at h
  split at h
  · split at h
    · exact exec_keeps_inv hinv (Instr.wf_of_decode ‹_› ‹_›) h
    · exact illegalCommand_keeps_inv hinv h
  · cases h

theorem hasByte_of_writeStorage_eq_next {b : Nat} {v : Byte} {s t : State} (h : writeStorage b v s = .next t) :
    s.hasByte b = true := by
  unfold writeStorage at h
  split at h
  · assumption
  · cases h

/-- Every action of the host keeps the invariant. -/
theorem perform_keeps_inv {a : HostAction} {s t : State} (hinv : s.Inv) (h : perform a s = .next t) : t.Inv := by
  cases a with
  | command c => exact issueCommand_keeps_inv hinv h
  | readRegister r =>
    obtain rfl := Host.Outcome.next.inj h
    exact hinv.of_writes rfl .keep rfl rfl rfl
  | writeRegister r v =>
    obtain rfl := Host.Outcome.next.inj h
    exact hinv.noAnswer
  | readByte b =>
    obtain rfl := eq_of_readStorage_eq_next h
    exact hinv.of_writes rfl .keep rfl rfl rfl
  | writeByte b v =>
    have hb := hasByte_of_writeStorage_eq_next h
    obtain rfl := eq_of_writeStorage_eq_next h
    exact hinv.of_writes rfl (.write v hb .keep) rfl rfl rfl
  | reset =>
    obtain rfl := Host.Outcome.next.inj h
    exact State.applyReset_inv hinv.1

/-- Settles O49: an idle step changes nothing, and every action keeps the invariant, which no action to come is part
of. -/
theorem stepKeepsTheInvariant : Obligations.StepKeepsTheInvariant := by
  intro s t hinv h
  obtain ⟨-, rfl⟩ | ⟨a, rest, -, ha⟩ := step_cases h
  · exact hinv
  · have hrest : State.Inv { s with pending := rest } := hinv
    exact perform_keeps_inv hrest ha

end Sys2Proof.Machine
end

section
/-!
PROOFS. The shift commands at every count, and each phase of the engine seen alone (R110 to R113, R120 to R124, R143).
-/

namespace Sys2Proof.Machine

/-! ### Every count -/

theorem shiftResult_ring (dir : Direction) (W p V : Nat) :
    shiftResult dir .ring W p V = if p % W = 0 then V else shiftedValue dir .ring W (p % W) V := by
  by_cases h : p % W = 0
  · rw [shiftResult, normalizePositions_ring_of_mod_eq_zero h, if_pos h]
  · have hp : p ≠ 0 := fun hp => h (by rw [hp, Nat.zero_mod])
    simp [shiftResult, normalizePositions, h, hp]

theorem shiftResult_of_ne_ring (dir : Direction) {fill : Fill} (W p V : Nat) (hf : fill ≠ .ring) :
    shiftResult dir fill W p V =
      if p = 0 then V
      else if W ≤ p then (if fill = .one then 2 ^ W - 1 else 0) else shiftedValue dir fill W p V := by
  obtain rfl | hp := Nat.eq_zero_or_pos p
  · rfl
  · rw [if_neg hp.ne']
    split_ifs with hle hone
    · subst hone
      rw [shiftResult, normalizePositions_saturate hf hp hle]
      rfl
    · rw [shiftResult, normalizePositions_saturate hf hp hle]
      cases fill with
      | zero => rfl
      | one => exact absurd rfl hone
      | ring => exact absurd rfl hf
    · rw [shiftResult, normalizePositions_of_lt fill hp (Nat.lt_of_not_le hle)]

/-- Settles O24: an engine run completes whatever the count, and its normalization gives the cases of `V'`. -/
theorem shiftsCompleteAtEveryCount : Obligations.ShiftsCompleteAtEveryCount := by
  refine fun s dir fill p hr => ⟨_, exec_shiftCommand_ready dir fill p hr, engine_completedAs dir fill p s,
    fun b => engine_byteAt_of_ge dir fill p, ?_⟩
  rw [engine_value]
  cases fill with
  | zero => exact shiftResult_of_ne_ring dir _ _ _ (by decide)
  | one => exact shiftResult_of_ne_ring dir _ _ _ (by decide)
  | ring => exact shiftResult_ring dir _ _ _

/-- Settles O28: the values of the two engine runs under zero. -/
theorem zeroFillShiftsAreArithmetic : Obligations.ZeroFillShiftsAreArithmetic := fun s p hr =>
  ⟨⟨_, exec_shiftCommand_ready .left .zero p hr, engine_left_zero_value p s⟩,
    _, exec_shiftCommand_ready .right .zero p hr, engine_right_zero_value p s⟩

/-! ### One phase alone -/

/-- Logical byte `k` after a shift command by a normalized count is that of both phases (R110, R120). -/
theorem logicalByte_of_exec_shiftCommand {dir : Direction} {fill : Fill} {p k : Nat} {s t : State} (hr : s.Ready)
    (hp : 0 < p) (hlt : p < s.W) (hk : k < s.par.nb) (h : exec (shiftCommand dir fill p) s = .next t) :
    t.logicalByte k = shiftedByte dir fill s.par.nb p s.logicalByte k := by
  obtain rfl := Host.Outcome.next.inj ((exec_shiftCommand_ready dir fill p hr).symm.trans h)
  exact engine_logicalByte_of_lt dir fill hp hlt hk

/-- A shift by whole bytes runs the whole-byte phase alone (R120, R121). -/
theorem shiftedByte_whole (dir : Direction) (fill : Fill) {nb q k : Nat} (L : Nat → Byte) (hq : q ≤ nb) (hk : k < nb) :
    shiftedByte dir fill nb (8 * q) L k = moved dir fill nb q (fillByte fill) L k := by
  have hdiv : 8 * q / 8 = q := Nat.mul_div_cancel_left q (by decide)
  rw [shiftedByte_eq, if_pos (Nat.mul_mod_right 8 q), byteMoved_eq_moved dir fill L (hdiv.trans_le hq) hk, hdiv]

/-- Settles O22: the six commands move the bytes as one pattern, by direction and fill. -/
theorem wholeByteShiftMovesTheBytes : Obligations.WholeByteShiftMovesTheBytes := by
  intro s q k hr hq hlt hk
  have hbyte (dir : Direction) (fill : Fill) (t : State) (h : exec (shiftCommand dir fill (8 * q)) s = .next t) :
      t.logicalByte k = moved dir fill s.par.nb q (fillByte fill) s.logicalByte k := by
    have hW : 8 * q < s.W := by
      unfold State.W
      omega
    rw [logicalByte_of_exec_shiftCommand hr (Nat.mul_pos (by decide) hq) hW hk h, shiftedByte_whole _ _ _ hlt.le hk]
  exact ⟨hbyte .left .zero, hbyte .left .one, hbyte .left .ring, hbyte .right .zero, hbyte .right .one,
    hbyte .right .ring⟩

/-- A shift by less than a byte runs the sub-bit phase alone (R120, R123, R124). -/
theorem shiftedByte_subBit (dir : Direction) (fill : Fill) {nb n : Nat} (L : Nat → Byte) (k : Nat) (hn : 1 ≤ n)
    (hn8 : n < 8) : shiftedByte dir fill nb n L k = subBitPhase dir fill nb n L k := by
  have hmod : n % 8 = n := Nat.mod_eq_of_lt hn8
  rw [shiftedByte_eq, hmod, if_neg (by omega), byteMoved, if_pos (Nat.div_eq_of_lt hn8)]

/-- Settles O23: the sub-bit phase on the bytes before the shift, whose boundary byte is the fill's. -/
theorem subBitShiftCarriesBetweenBytes : Obligations.SubBitShiftCarriesBetweenBytes := by
  intro s n k hr hn hn7 hk
  have hn8 : n < 8 := by omega
  have hbyte {dir : Direction} {fill : Fill} {t : State} (h : exec (shiftCommand dir fill n) s = .next t) :
      t.logicalByte k = subBitPhase dir fill s.par.nb n s.logicalByte k := by
    have hW : n < s.W := by
      unfold State.W
      omega
    rw [logicalByte_of_exec_shiftCommand hr hn hW hk h, shiftedByte_subBit dir fill _ k hn hn8]
  refine ⟨fun fill t h => ?_, fun fill t h => ?_⟩
  · rw [hbyte h, subBitPhase_left fill _ _ k hn8]
    cases fill <;> rfl
  · rw [hbyte h, subBitPhase_right fill _ _ k hn8]
    cases fill <;> rfl

end Sys2Proof.Machine
end

section
/-!
PROOFS. The registers that a fault writes and a reset clears: STATUS and FAULT_INFO as the host reads them (R26 to R28),
what changes them (R20), and every register after reset (R170, R174).
-/

namespace Sys2Proof.Machine

/-! ### Register reads -/

/-- Settles O41: the value is the register's, by its number. -/
theorem registerReads : Obligations.RegisterReads := by
  refine fun s r => ⟨s.register r, rfl, ?_, ?_, ?_, ?_, fun hr => ?_⟩
  · rintro rfl; rfl
  · rintro rfl; rfl
  · rintro rfl; rfl
  · rintro rfl; rfl
  · obtain ⟨n, rfl⟩ := Nat.exists_eq_add_of_le' hr
    rfl

/-! ### The layout of STATUS -/

/-- STATUS as read shows the fields and no reserved bit (R26). -/
theorem State.statusReg_getLsbD (s : State) (j : Nat) :
    s.statusReg.getLsbD j = (s.status.getLsbD j && decide (j = 0 ∨ 4 ≤ j ∧ j < 8)) := by
  rw [State.statusReg, BitVec.getLsbD_and, statusFields_getLsbD]

theorem State.statusReg_getLsbD_of_reserved (s : State) {j : Nat} (h0 : j ≠ 0) (hj : j < 4 ∨ 8 ≤ j) :
    s.statusReg.getLsbD j = false := by
  rw [State.statusReg_getLsbD, decide_eq_false (by omega), Bool.and_false]

/-- FAULT_CODE is all of STATUS as read that lies above bit 3 (R26). -/
theorem State.statusReg_div (s : State) : s.statusReg.toNat / 16 = s.faultCode := by
  refine Nat.eq_of_testBit_eq fun j => ?_
  have hfield : (j + 4 = 0 ∨ 4 ≤ j + 4 ∧ j + 4 < 8) ↔ j < 4 := by omega
  rw [Nat.testBit_div_two_pow (n := 4), BitVec.testBit_toNat, State.statusReg_getLsbD, State.faultCode_testBit,
    decide_eq_decide.mpr hfield, Bool.and_comm]

/-- A legal STATUS has a code of the fault table, and none while the block runs (R26, R151). -/
theorem State.faultCode_of_legal {s : State} (h : s.status ∈ legalStatus) :
    s.faultCode ≤ 4 ∧ (s.faulted = false → s.faultCode = 0) := by
  unfold State.faultCode State.faulted
  simp only [legalStatus, List.mem_cons, List.not_mem_nil, or_false] at h
  obtain h | h | h | h | h := h <;> rw [h] <;> decide

/-- Settles O43: the bits of STATUS under the mask of its fields, and the codes of its legal values. -/
theorem statusRegister : Obligations.StatusRegister := by
  refine fun s => ⟨rfl, ?_, s.statusReg_div, fun j h1 h4 => ?_, fun j h8 => ?_, fun hinv => ?_, fun _ _ => rfl⟩
  · rw [State.statusReg_getLsbD, State.faulted, decide_eq_true (.inl rfl), Bool.and_true]
  · exact s.statusReg_getLsbD_of_reserved (by omega) (.inl h4)
  · exact s.statusReg_getLsbD_of_reserved (by omega) (.inr h8)
  · obtain ⟨-, -, -, -, hlegal, -⟩ := hinv
    exact State.faultCode_of_legal hlegal

/-! ### What changes STATUS and FAULT_INFO -/

/-- Only a fault entry of a running block or a reset changes STATUS or FAULT_INFO (R20, R26, R27). -/
theorem perform_keeps_fault_registers {a : HostAction} {s t : State} (h : perform a s = .next t) :
    (t.status = s.status ∧ t.faultInfo = s.faultInfo) ∨ a = .reset ∨
      (s.faulted = false ∧ (∃ c, a = .command c) ∧ ∃ cause, t = s.enterFault cause) := by
  cases a with
  | command c =>
    cases issueCommand_outcome h with
    | halted _ ht => exact .inl ⟨by rw [ht, State.noAnswer_status], by rw [ht, State.noAnswer_faultInfo]⟩
    | fault hf cause ht => exact .inr (.inr ⟨hf, ⟨c, rfl⟩, cause, ht⟩)
    | completed _ ht => exact .inl ⟨ht.status, ht.faultInfo⟩
  | readRegister r =>
    obtain rfl := Host.Outcome.next.inj h
    exact .inl ⟨rfl, rfl⟩
  | writeRegister r v =>
    obtain rfl := Host.Outcome.next.inj h
    exact .inl ⟨rfl, rfl⟩
  | readByte b =>
    obtain rfl := eq_of_readStorage_eq_next h
    exact .inl ⟨rfl, rfl⟩
  | writeByte b v =>
    obtain rfl := eq_of_writeStorage_eq_next h
    exact .inl ⟨rfl, rfl⟩
  | reset => exact .inr (.inl rfl)

/-- Settles O39: an idle step changes nothing, and a fault entry responds what it writes. -/
theorem statusChangesOnlyByFaultAndReset : Obligations.StatusChangesOnlyByFaultAndReset := by
  intro s t h hchange
  obtain ⟨-, rfl⟩ | ⟨a, rest, hp, ha⟩ := step_cases h
  · simp at hchange
  · rw [hp, List.head?_cons]
    obtain ⟨hstatus, hinfo⟩ | rfl | ⟨hf, ⟨c, rfl⟩, cause, rfl⟩ := perform_keeps_fault_registers ha
    · exact absurd hchange (by simp [hstatus, hinfo])
    · exact .inl rfl
    · exact .inr ⟨hf, ⟨c, rfl⟩, by simp⟩

/-! ### Reset -/

/-- The number that CFG reads as, from its three fields (R24). -/
theorem State.cfgReg_toNat (s : State) :
    s.cfgReg.toNat = (if s.par.endian = .big then 1 else 0) + (if s.par.checked then 2 else 0) +
      (if s.par.attached then 4 else 0) := by
  unfold State.cfgReg
  cases s.par.endian <;> cases s.par.checked <;> cases s.par.attached <;> rfl

theorem initialStorage_read_of_zeroed {p : Params} (h : p.init = .zeroed) (b : Nat) :
    Memory.read (initialStorage p) b = 0x00 := by
  rw [initialStorage_of_zeroed h]
  rfl

theorem State.register_status_of_eq_zero {s : State} (h : s.status = 0) : s.register 2 = 0 := by
  simp [State.register, State.statusReg, h]

@[simp] theorem State.applyReset_faultCode (s : State) : s.applyReset.faultCode = 0 := by
  simp [State.faultCode]

/-- Settles O45: a reset writes the registers, and the storage is that of the parameters. -/
theorem resetValues : Obligations.ResetValues := by
  refine fun s => ⟨s.applyReset, rfl, rfl, rfl, s.applyReset_faulted, s.applyReset_faultCode, rfl,
    s.applyReset.cfgReg_toNat, rfl, State.register_status_of_eq_zero rfl, rfl, initialStorage_of_detached,
    fun _ hinit b _ => initialStorage_read_of_zeroed hinit b, fun bytes ha hinit hlen b hb => ?_⟩
  rw [getElem?_eq_borrowedByte (hlen ▸ hb), State.byteAt, State.applyReset_storage,
    initialStorage_read_of_borrowed ha hinit hb]

end Sys2Proof.Machine
end

section
/-!
PROOFS. SCRATCH_BYTES is not observable (R13, R47): every shared operation commutes with a change of it, and so does
every command.
-/

namespace Sys2Proof.Machine

/-- The block with another SCRATCH_BYTES (R13). -/
def State.withScratch (n : Nat) (s : State) : State :=
  { s with par := { s.par with scratchBytes := n } }

theorem State.checks_withScratch (n : Nat) (s : State) (l : List Nat) : (s.withScratch n).checks l = s.checks l := by
  simp only [State.checks, State.checkIndices_eq]
  rfl

theorem State.enterFault_withScratch (n : Nat) (s : State) (c : Cause) :
    (s.withScratch n).enterFault c = (s.enterFault c).withScratch n := by
  cases c <;> rfl

/-- A command whose effect commutes with the change commutes with it. -/
theorem runCommand_withScratch {n : Nat} {s : State} {effect : State → State} (l : List Nat)
    (heffect : effect (s.withScratch n) = (effect s).withScratch n) :
    ∃ t, runCommand s l effect = .next t ∧ runCommand (s.withScratch n) l effect = .next (t.withScratch n) := by
  have hfaulted : (s.withScratch n).faulted = s.faulted := rfl
  unfold runCommand
  rw [hfaulted, State.checks_withScratch]
  split
  · exact ⟨_, rfl, rfl⟩
  · split
    · exact ⟨_, rfl, congrArg _ (s.enterFault_withScratch n _)⟩
    · exact ⟨_, rfl, congrArg _ heffect⟩

theorem engine_withScratch (n : Nat) (dir : Direction) (fill : Fill) (p : Nat) (s : State) :
    engine dir fill p (s.withScratch n) = (engine dir fill p s).withScratch n := by
  have hW : (s.withScratch n).W = s.W := rfl
  unfold engine
  rw [hW]
  cases normalizePositions s.W p fill <;> rfl

/-- Every command is run with its index operands, and its effect commutes with the change. -/
theorem exec_eq_runCommand_withScratch (n : Nat) (i : Instr) :
    ∃ effect : State → State, (∀ s, exec i s = runCommand s (indexOperands i) effect) ∧
      ∀ s, effect (s.withScratch n) = (effect s).withScratch n := by
  cases i with
  | get a => exact ⟨_, exec_get a, fun _ => rfl⟩
  | set a v => exact ⟨_, exec_set a v, fun _ => rfl⟩
  | toggle a => exact ⟨_, exec_toggle a, fun _ => rfl⟩
  | swap a b => exact ⟨_, exec_swap a b, fun _ => rfl⟩
  | setAll v => exact ⟨_, exec_setAll v, fun _ => rfl⟩
  | map a => exact ⟨_, exec_map a, fun _ => rfl⟩
  | shlZ p => exact ⟨_, exec_shiftCommand .left .zero p, engine_withScratch n _ _ _⟩
  | shlO p => exact ⟨_, exec_shiftCommand .left .one p, engine_withScratch n _ _ _⟩
  | shlR p => exact ⟨_, exec_shiftCommand .left .ring p, engine_withScratch n _ _ _⟩
  | shrZ p => exact ⟨_, exec_shiftCommand .right .zero p, engine_withScratch n _ _ _⟩
  | shrO p => exact ⟨_, exec_shiftCommand .right .one p, engine_withScratch n _ _ _⟩
  | shrR p => exact ⟨_, exec_shiftCommand .right .ring p, engine_withScratch n _ _ _⟩

/-- Settles O40: the checks, the fault entry and the effect of each command commute with the change. -/
theorem scratchSizeIsNotObservable : Obligations.ScratchSizeIsNotObservable := by
  intro s i n
  obtain ⟨effect, hexec, heffect⟩ := exec_eq_runCommand_withScratch n i
  rw [hexec, hexec]
  exact runCommand_withScratch (indexOperands i) (heffect s)

end Sys2Proof.Machine
end
